-- ==== Sys2Proof/Word.lean ====
section
/-! DEFINITION. The values the spec's rules move about: bytes, 32-bit register values and addresses, the 4-byte word
of a key schedule (R171), the 16-byte block (R8, glossary), and the 240-byte round-key storage (R32). The functions that
say which byte of them is which stand in Machine/Bytes.lean. -/

namespace Sys2Proof

/-- An unsigned 8-bit value (R7). -/
abbrev Byte := BitVec 8

/-- The value of a 32-bit register (R6, decision D2). -/
abbrev Reg32 := BitVec 32

/-- A data-memory address, `ADDR_W` = 32 bits (R6, R70). -/
abbrev Addr := BitVec 32

/-- An address on the bus that reaches the register window, `AES_BASE` among them (R47). DESIGN CHOICE, unsafe: the spec gives
this bus no width, since `ADDR_W` is the data memory's alone; the model takes 32 bits (log entry 30). -/
abbrev BusAddr := BitVec 32

/-- A word of the key schedule, or a column of the state matrix: 4 bytes, `a0` first (R171, R190). -/
structure Word where
  a0 : Byte
  a1 : Byte
  a2 : Byte
  a3 : Byte
  deriving DecidableEq, Repr, Inhabited

/-- A block, 16 bytes, as the four columns of the state matrix: bytes 0 to 3 are `c0`, bytes 4 to 7 `c1`, and so on
(R190). -/
structure Block where
  c0 : Word
  c1 : Word
  c2 : Word
  c3 : Word
  deriving DecidableEq, Repr, Inhabited

/-- The round-key storage `ctx.RK`: exactly 240 bytes (R32). -/
structure Schedule where
  bytes : List Byte
  length_eq : bytes.length = 240
  deriving DecidableEq, Repr

/-- Four bytes of 0x00. -/
def Word.zero : Word := ⟨0, 0, 0, 0⟩

/-- `zeros(16)` (R8). -/
def Block.zero : Block := ⟨.zero, .zero, .zero, .zero⟩

/-- `zeros(240)` (R8, R32). -/
def Schedule.zero : Schedule := ⟨List.replicate 240 0, List.length_replicate⟩

/-- Bytewise exclusive-or of two words (R8, R172). -/
def Word.xor (x y : Word) : Word := ⟨x.a0 ^^^ y.a0, x.a1 ^^^ y.a1, x.a2 ^^^ y.a2, x.a3 ^^^ y.a3⟩

/-- Bytewise exclusive-or of two blocks (R8). -/
def Block.xor (x y : Block) : Block := ⟨x.c0.xor y.c0, x.c1.xor y.c1, x.c2.xor y.c2, x.c3.xor y.c3⟩

end Sys2Proof
end

