-- ==== Sys2Proof/Config.lean ====
section
/-! DEFINITION. What the platform or the chip fixes and the spec leaves open (R6), and the model's free values.
The OPEN parameters that a run must be able to look up, `AES_BASE` (R47) and `MemOK` (R79), are plain data in
`State.platform`, so that a state says which platform it stands on (log entries 5 and 6). -/

namespace Sys2Proof

/-- The free values: one byte per draw, with no value that a proof can know. Whatever the spec calls unspecified after
a bus fault (R79, R309), a host race (R345), a reset during a command (R341) or a refused register read (R76) is made of
these bytes, applied to the counter `State.freeCtr` (log entry 9). -/
opaque Config.freeByte : Nat → Byte

/-- The OPEN parameter `latency(W, L)` (R348, decision D30): finite, and no rule and no definition of the model reads it
(log entry 23). -/
opaque Config.latency : Reg32 → Reg32 → Nat

/-- The number of data-memory addresses, 2^`ADDR_W` with `ADDR_W` = 32 (R6, R70). -/
abbrev Config.addrSpace : Nat := 4294967296

/-- The number of addresses of the bus that reaches the register window. DESIGN CHOICE, unsafe: the spec gives that bus no
width; 2^32 is the model's (log entry 30). -/
abbrev Config.busSpace : Nat := 4294967296

end Sys2Proof
end

