-- ==== Sys2Proof/Syntax.lean ====
section
/-! DEFINITION. The commands of the core: one constructor per legal command word, that is, per row of
spec/opcode_table.json (R105). No command carries an operand in its word: the operands are the latched values A, B and L
(R104), and the key variant of the two INIT commands is part of the word, hence of the constructor (R102). -/

namespace Sys2Proof

/-- A legal command (R101, R102, R105). -/
inductive Instr where
  /-- 0x11: establish an AES-128 schedule, zero IV (R220). -/
  | initKeyAes128
  /-- 0x21: establish an AES-192 schedule, zero IV (R220). -/
  | initKeyAes192
  /-- 0x31: establish an AES-256 schedule, zero IV (R220). -/
  | initKeyAes256
  /-- 0x12: establish an AES-128 schedule and an IV (R221). -/
  | initKeyIvAes128
  /-- 0x22: establish an AES-192 schedule and an IV (R221). -/
  | initKeyIvAes192
  /-- 0x32: establish an AES-256 schedule and an IV (R221). -/
  | initKeyIvAes256
  /-- 0x03: overwrite the IV or counter (R222). -/
  | setIv
  /-- 0x04: copy the IV or counter to memory (R223). -/
  | getIv
  /-- 0x05: encrypt one block in place (R240). -/
  | ecbEnc
  /-- 0x06: decrypt one block in place (R241). -/
  | ecbDec
  /-- 0x07: encrypt a buffer in CBC mode (R260). -/
  | cbcEnc
  /-- 0x08: decrypt a buffer in CBC mode (R261). -/
  | cbcDec
  /-- 0x09: encrypt or decrypt a buffer in CTR mode (R281). -/
  | ctrXcrypt
  /-- 0x0A: wipe the context (R224). -/
  | clear
  deriving DecidableEq, Repr

end Sys2Proof
end

