-- ==== Sys2Proof/Machine/State.lean ====
section
/-! DEFINITION. The state of the machine as plain data: the cipher context, the host-visible registers, the command latch
and the fault mark (R30, R51); the host's data memory and the platform it stands on (R70, R79); and the coming turns of
the two agents (R316). Every field is at its reset value in `State.reset` (R340). -/

namespace Sys2Proof.Machine

/-- Why the machine stops. -/
inductive Fault where
  /-- Raised by `complete`, that is, by every meaning, when it is asked to run with `pending` empty: completion is
  enabled exactly when `pending` is not empty (R300). No step reaches it. Safe (log entry 20). -/
  | nothingPending
  /-- Raised by `hostMemRead` and `hostMemWrite` when the host itself accesses a data-memory address that the platform
  does not answer (`MemOK` = false, R79), outside the regions of a pending command (inside them the access is a race,
  R345): the spec says what the core's access does there, not what the host's does.
  Safe (log entry 15). -/
  | unansweredHostAccess
  deriving DecidableEq, Repr

/-- Why the machine has no meaning for what it is given. -/
inductive Refusal where
  /-- Raised by `exec` for a command that has no meaning in the model. No arm raises it. Safe. -/
  | notModelled (mnemonic : String)
  /-- Raised by `complete` when a command's body reaches an address that maps a device with side effects, and by
  `hostMemRead` and `hostMemWrite` on such an address: outside the spec, refused (R77, 93_implementation_defined.md U13).
  Safe (log entry 7). -/
  | deviceAccess
  /-- Raised by `hostRegRead` and `hostRegWrite` on an access that touches no byte of this core's register window (R47):
  it reaches some other device, which the spec does not describe. Safe (log entry 16). -/
  | outsideWindow
  deriving DecidableEq, Repr

/-- A key variant (R2, R31). -/
inductive Variant where
  | aes128
  | aes192
  | aes256
  deriving DecidableEq, Repr

/-- The outcome of a command, `STATUS.ERR` (R44, R301). The codes 7 to 15 are never produced, so that they have no
name here. -/
inductive ErrCode where
  /-- 0, success. -/
  | ok
  /-- 1 (R306). -/
  | invalidKeyLength
  /-- 2 (R307). -/
  | invalidBufferLength
  /-- 3 (R305). -/
  | uninitializedContext
  /-- 4 (R304). -/
  | illegalCommand
  /-- 5 (R308). -/
  | addressRange
  /-- 6 (R309). -/
  | busFault
  deriving DecidableEq, Repr

/-- An event whose result on the hardware is unspecified (R51). -/
inductive FaultReason where
  /-- A command's body accessed an address that the platform does not answer (R79, R309). -/
  | busFault
  /-- A host accessed a region of the pending command (R345). -/
  | hostRace
  /-- Reset arrived while a command was pending (R341). -/
  | resetDuringBusy
  /-- A register access was not an aligned 32-bit access (R76). -/
  | registerAccessRefused
  deriving DecidableEq, Repr

/-- The cipher context (R30, group 1). -/
structure Ctx where
  /-- `ctx.KV`: none is NONE, no schedule established (R31). -/
  kv : Option Variant
  /-- `ctx.RK` (R32). -/
  rk : Schedule
  /-- `ctx.IV` (R33). -/
  iv : Block
  /-- `ctx.SCR` (R34). -/
  scr : Block
  deriving DecidableEq, Repr

/-- An accepted command: the word W and the values A, B, L of OPA, OPB, OPLEN at acceptance (R49). -/
structure Pending where
  w : Reg32
  a : Addr
  b : Addr
  l : Reg32
  deriving DecidableEq, Repr

/-- How wide a host's register access is (R76). DESIGN CHOICE, unsafe: the spec gives the register bus no data width, and R76
names only 8- and 16-bit accesses beside the 32-bit one; the model has accesses of any greater number of bytes too
(log entry 34). -/
inductive AccessSize where
  /-- 8 bits. -/
  | byte
  /-- 16 bits. -/
  | half
  /-- 32 bits, the only width that reaches a register. -/
  | word
  /-- Wider than 32 bits, by `extra` + 1 bytes. -/
  | wide (extra : Nat)
  deriving DecidableEq, Repr

/-- One step of the host (R316), or the platform's reset input (R340). -/
inductive HostOp where
  /-- A read on the register bus, `RD` (R108) when aligned and 32 bits wide. -/
  | regRead (addr : BusAddr) (size : AccessSize)
  /-- A write on the register bus, `WR` (R108) when aligned and 32 bits wide. -/
  | regWrite (addr : BusAddr) (size : AccessSize) (value : Reg32)
  /-- `WAIT`: read STATUS until BUSY reads 0 (R108). -/
  | wait
  /-- A read of one byte of the host's data memory (R70). -/
  | memRead (addr : Addr)
  /-- A write of one byte of the host's data memory (R70). -/
  | memWrite (addr : Addr) (value : Byte)
  /-- The reset input (R340, R341). -/
  | reset
  deriving DecidableEq, Repr

/-- Whose turn it is (R316). -/
inductive Turn where
  | core
  | host (op : HostOp)
  deriving DecidableEq, Repr

/-- What a data-memory address leads to: plain memory (R77), nothing that answers (`MemOK` = false, R79), or a device
with side effects (R77, U13). -/
inductive AddrKind where
  | plain
  | unanswered
  | device
  deriving DecidableEq, Repr

/-- The addresses `lo` to `hi - 1` of the platform's map. -/
structure AddrRange where
  lo : Nat
  hi : Nat
  kind : AddrKind
  deriving DecidableEq, Repr

/-- The platform's open parameters: the window base `AES_BASE` (R47), and the data-memory map that `MemOK` reads (R79):
the first range that holds an address gives its kind, and an address in no range is plain memory. -/
structure Platform where
  aesBase : BusAddr
  ranges : List AddrRange
  deriving DecidableEq, Repr

/-- Data memory as (address, byte) pairs, addresses strictly rising, no pair with the byte an unlisted address reads as
(`Memory.wf`, `unlistedByte`). -/
abbrev Memory := List Host.Cell

/-- The whole machine. -/
structure State where
  /-- The cipher context (R31 to R34). -/
  ctx : Ctx
  /-- OPA (R37). -/
  opa : Reg32
  /-- OPB (R38). -/
  opb : Reg32
  /-- OPLEN (R39). -/
  oplen : Reg32
  /-- STATUS.OVR (R43). -/
  ovr : Bool
  /-- STATUS.ERR (R44). -/
  err : ErrCode
  /-- The command latch; STATUS.BUSY is 1 exactly when it is not empty (R42, R49). -/
  pending : Option Pending
  /-- The fault mark (R51). -/
  fault : Option FaultReason
  /-- The host's data memory (R70). -/
  mem : Memory
  /-- The platform's open parameters (R47, R79). -/
  platform : Platform
  /-- The turns to come, first one first; when there is none the core has the turn (R300; log entries 1 and 2). -/
  schedule : List Turn
  /-- What the host's last read returned, none before the first (log entry 17). -/
  hostRead : Option Reg32
  /-- A host has accessed a region of the pending command (R345; log entry 28). -/
  raced : Bool
  /-- How many free bytes have been drawn (`Config.freeByte`; log entry 9). -/
  freeCtr : Nat
  deriving DecidableEq, Repr

/-- The context after reset and after CLEAR (R224, R340). -/
def Ctx.reset : Ctx := ⟨none, .zero, .zero, .zero⟩

/-- The platform a run from reset stands on: every address is plain memory, and the window is at 0 of the register bus
(DESIGN CHOICE, unsafe: both are OPEN parameters; log entries 5, 6, 7 and 30). -/
def Platform.reset : Platform := ⟨0, []⟩

/-- The machine right after reset (R340), with nothing yet written to memory, no turn scheduled and an empty mark. -/
def State.reset : State where
  ctx := .reset
  opa := 0
  opb := 0
  oplen := 0
  ovr := false
  err := .ok
  pending := none
  fault := none
  mem := []
  platform := .reset
  schedule := []
  hostRead := none
  raced := false
  freeCtr := 0

end Sys2Proof.Machine
end

