-- ==== Sys2Proof/Machine/Bytes.lean ====
section
/-! DEFINITION. Which byte is which: byte order of words, blocks and the schedule (R8, R71, R73, R171, R190), and the
big-endian integer of 16 bytes (R8, R280). -/

namespace Sys2Proof

/-- The 4 bytes of a word, `a0` first (R171). -/
def Word.toList (w : Word) : List Byte := [w.a0, w.a1, w.a2, w.a3]

/-- The word whose byte k is `f k`. -/
def Word.ofFn (f : Nat → Byte) : Word := ⟨f 0, f 1, f 2, f 3⟩

/-- The 16 bytes of a block, byte 0 first: column by column (R190). -/
def Block.toList (b : Block) : List Byte := b.c0.toList ++ b.c1.toList ++ b.c2.toList ++ b.c3.toList

/-- The block whose byte k is `f k` (R190). -/
def Block.ofFn (f : Nat → Byte) : Block :=
  ⟨.ofFn f, .ofFn fun k => f (4 + k), .ofFn fun k => f (8 + k), .ofFn fun k => f (12 + k)⟩

/-- Byte k of a block, k = 0 to 15 (R8). -/
def Block.byte (b : Block) (k : Nat) : Byte := b.toList.getD k 0

/-- The block of the first 16 bytes of a list. -/
def Block.ofList (l : List Byte) : Block := .ofFn fun k => l.getD k 0

/-- The same function of bytes on each byte of a block. -/
def Block.map (f : Byte → Byte) (b : Block) : Block := .ofFn fun k => f (b.byte k)

/-- The unsigned integer of a byte sequence, byte 0 the most significant (R8). -/
def natOfBytesBE (l : List Byte) : Nat := l.foldl (fun n b => n * 256 + b.toNat) 0

/-- The big-endian 128-bit integer of a block (R8, R280). -/
def Block.toNatBE (b : Block) : Nat := natOfBytesBE b.toList

/-- A schedule from its first bytes: what is beyond them, up to 240 bytes, is zero (R175, decision D16). -/
def Schedule.ofBytes (l : List Byte) : Schedule :=
  ⟨(l ++ List.replicate 240 0).take 240, by
    rw [List.length_take, List.length_append, List.length_replicate]; omega⟩

/-- `ctx.RK[k]` (R32). -/
def Schedule.byte (rk : Schedule) (k : Nat) : Byte := rk.bytes.getD k 0

/-- Word i of the schedule, `ctx.RK[4i..4i+4)` (R32). -/
def Schedule.word (rk : Schedule) (i : Nat) : Word := .ofFn fun k => rk.byte (4 * i + k)

/-- Round key r, `ctx.RK[16r..16r+16)` (R32, R175). -/
def Schedule.roundKey (rk : Schedule) (r : Nat) : Block := .ofFn fun k => rk.byte (16 * r + k)

end Sys2Proof
end

