-- ==== Sys2Proof/Machine/Gf.lean ====
section
/-! DEFINITION. Arithmetic in GF(2^8) modulo x^8 + x^4 + x^3 + x + 1 (R130 to R134). -/

namespace Sys2Proof.Machine

/-- Addition: bitwise exclusive-or (R131). -/
def gadd (a b : Byte) : Byte := a ^^^ b

/-- Multiplication by 02: shift left, drop bit 8, and add 1B when the bit shifted out was 1 (R132). -/
def xtime (x : Byte) : Byte := (x <<< 1) ^^^ (if x.getLsbD 7 then 0x1B else 0x00)

/-- n rounds of shift-and-add, from bit k of y on: r collects, t is x times 02^k (R133). -/
def gmulLoop (y : Byte) : Nat → Nat → Byte → Byte → Byte
  | 0, _, r, _ => r
  | n + 1, k, r, t => gmulLoop y n (k + 1) (if y.getLsbD k then r ^^^ t else r) (xtime t)

/-- The field product (R133). -/
def gmul (x y : Byte) : Byte := gmulLoop y 8 0 0x00 x

/-- x times 02 (R134). -/
def mul02 (x : Byte) : Byte := xtime x

/-- x times 03 (R134). -/
def mul03 (x : Byte) : Byte := xtime x ^^^ x

/-- x times 04, `x4` of R134. -/
def mul04 (x : Byte) : Byte := xtime (xtime x)

/-- x times 08, `x8` of R134. -/
def mul08 (x : Byte) : Byte := xtime (xtime (xtime x))

/-- x times 09 (R134). -/
def mul09 (x : Byte) : Byte := mul08 x ^^^ x

/-- x times 0B (R134). -/
def mul0B (x : Byte) : Byte := mul08 x ^^^ mul02 x ^^^ x

/-- x times 0D (R134). -/
def mul0D (x : Byte) : Byte := mul08 x ^^^ mul04 x ^^^ x

/-- x times 0E (R134). -/
def mul0E (x : Byte) : Byte := mul08 x ^^^ mul04 x ^^^ mul02 x

/-- Rotation of a byte to the left (R152). -/
def rotl8 (b : Byte) (n : Nat) : Byte := (b <<< n) ||| (b >>> (8 - n))

/-- The affine map that, after the field inverse, defines the S-box (R152). The machine looks the tables up (R150) and
does not use it. -/
def sboxAffine (b : Byte) : Byte :=
  b ^^^ rotl8 b 1 ^^^ rotl8 b 2 ^^^ rotl8 b 3 ^^^ rotl8 b 4 ^^^ 0x63

end Sys2Proof.Machine
end

