-- ==== Sys2Proof/Machine/BlockTransform.lean ====
section
/-! DEFINITION. The round functions and their inverses, on the flat block with index k = r + 4c (R190 to R197), and the two
block transforms (R198, R199). -/

namespace Sys2Proof.Machine

/-- Entry `s[r][c]` of the state matrix (R190). -/
def entry (s : Block) (r c : Nat) : Byte := s.byte (r + 4 * c)

/-- The block of a state matrix: `out[r + 4c] = s[r][c]` (R190). -/
def ofEntries (f : Nat → Nat → Byte) : Block := .ofFn fun k => f (k % 4) (k / 4)

/-- AddRoundKey with the round key given (R191). -/
def addRoundKey (s k : Block) : Block := s.xor k

/-- SubBytes (R192). -/
def subBytes (s : Block) : Block := s.map sbox

/-- ShiftRows: `s'[r][c] = s[r][(c + r) mod 4]` (R193). -/
def shiftRows (s : Block) : Block := ofEntries fun r c => entry s r ((c + r) % 4)

/-- One column of MixColumns (R194). -/
def mixColumn (w : Word) : Word :=
  ⟨mul02 w.a0 ^^^ mul03 w.a1 ^^^ w.a2 ^^^ w.a3,
   w.a0 ^^^ mul02 w.a1 ^^^ mul03 w.a2 ^^^ w.a3,
   w.a0 ^^^ w.a1 ^^^ mul02 w.a2 ^^^ mul03 w.a3,
   mul03 w.a0 ^^^ w.a1 ^^^ w.a2 ^^^ mul02 w.a3⟩

/-- MixColumns: each column by itself (R194). -/
def mixColumns (s : Block) : Block := ⟨mixColumn s.c0, mixColumn s.c1, mixColumn s.c2, mixColumn s.c3⟩

/-- InvSubBytes (R195). -/
def invSubBytes (s : Block) : Block := s.map invSbox

/-- InvShiftRows: `s'[r][(c + r) mod 4] = s[r][c]`, read as what stands in column c of row r (R196). -/
def invShiftRows (s : Block) : Block := ofEntries fun r c => entry s r ((c + 4 - r) % 4)

/-- One column of InvMixColumns (R197). -/
def invMixColumn (w : Word) : Word :=
  ⟨mul0E w.a0 ^^^ mul0B w.a1 ^^^ mul0D w.a2 ^^^ mul09 w.a3,
   mul09 w.a0 ^^^ mul0E w.a1 ^^^ mul0B w.a2 ^^^ mul0D w.a3,
   mul0D w.a0 ^^^ mul09 w.a1 ^^^ mul0E w.a2 ^^^ mul0B w.a3,
   mul0B w.a0 ^^^ mul0D w.a1 ^^^ mul09 w.a2 ^^^ mul0E w.a3⟩

/-- InvMixColumns: each column by itself (R197). -/
def invMixColumns (s : Block) : Block :=
  ⟨invMixColumn s.c0, invMixColumn s.c1, invMixColumn s.c2, invMixColumn s.c3⟩

/-- A full round of Cipher: SubBytes, ShiftRows, MixColumns, AddRoundKey (R198). -/
def encRound (s k : Block) : Block := addRoundKey (mixColumns (shiftRows (subBytes s))) k

/-- A full round of InvCipher: InvShiftRows, InvSubBytes, AddRoundKey, InvMixColumns (R199). -/
def decRound (s k : Block) : Block := invMixColumns (addRoundKey (invSubBytes (invShiftRows s)) k)

/-- Rounds 1, 2, …, n of Cipher, in that order (R198). -/
def encRounds (rk : Schedule) : Nat → Block → Block
  | 0, s => s
  | n + 1, s => encRound (encRounds rk n s) (rk.roundKey (n + 1))

/-- Rounds n, n - 1, …, 1 of InvCipher, in that order (R199). -/
def decRounds (rk : Schedule) : Nat → Block → Block
  | 0, s => s
  | n + 1, s => decRounds rk n (decRound s (rk.roundKey (n + 1)))

/-- `Cipher(b, RK, Nr)` (R198): the last round has no MixColumns. -/
def cipher (b : Block) (rk : Schedule) (nr : Nat) : Block :=
  let s := encRounds rk (nr - 1) (addRoundKey b (rk.roundKey 0))
  addRoundKey (shiftRows (subBytes s)) (rk.roundKey nr)

/-- `InvCipher(b, RK, Nr)` (R199). -/
def invCipher (b : Block) (rk : Schedule) (nr : Nat) : Block :=
  let s := decRounds rk (nr - 1) (addRoundKey b (rk.roundKey nr))
  addRoundKey (invSubBytes (invShiftRows s)) (rk.roundKey 0)

end Sys2Proof.Machine
end

