-- ==== Sys2Proof/WellFormed.lean ====
section
/-! DEFINITION. The one command format CMD32 as fields (R100), and which field values make a legal word (R103, R105). -/

namespace Sys2Proof

/-- The three fields of a command word (R100): `RSV = W[31:6]`, `VAR = W[5:4]`, `OPCODE = W[3:0]`. -/
structure Fields where
  rsv : BitVec 26
  var : BitVec 2
  opcode : BitVec 4
  deriving DecidableEq, Repr

/-- RSV must be zero for every opcode (R103). -/
def Fields.rsvOk (f : Fields) : Bool := f.rsv == 0

/-- The opcode is one of the ten that R101 names. -/
def Fields.opcodeOk (f : Fields) : Bool := 1 ≤ f.opcode.toNat && f.opcode.toNat ≤ 10

/-- VAR is a variant on the two INIT commands and 00 on every other command (R102). -/
def Fields.varOk (f : Fields) : Bool :=
  if f.opcode = 1 ∨ f.opcode = 2 then f.var != 0 else f.var == 0

/-- The fields make a legal word (R105). -/
abbrev Fields.WellFormed (f : Fields) : Prop := f.rsvOk = true ∧ f.opcodeOk = true ∧ f.varOk = true

end Sys2Proof
end

