-- ==== Sys2Proof/Decode.lean ====
section
/-! DEFINITION. Decoding a command word (R100 to R107): total on all 2^32 words, every illegal word refused under the
name of its first fault (R304); and the encoder, from the same tables. -/

namespace Sys2Proof

/-- Why a word is illegal (R304: "a reserved OPCODE, a nonzero RSV field, VAR = 00 on INIT_KEY or INIT_KEY_IV, or
VAR ≠ 00 on any other opcode"). -/
inductive DecodeError where
  /-- RSV is not zero (R103). -/
  | reservedBits
  /-- OPCODE is 0x0 or 0xB to 0xF (R101). -/
  | reservedOpcode
  /-- VAR = 00 on INIT_KEY or INIT_KEY_IV (R102). -/
  | variantMissing
  /-- VAR ≠ 00 on a command that takes no variant (R102). -/
  | variantGiven
  deriving DecidableEq, Repr

/-- The fields of a word (R100). -/
def fieldsOf (w : Reg32) : Fields :=
  ⟨w.extractLsb' 6 26, w.extractLsb' 4 2, w.extractLsb' 0 4⟩

/-- The word of three fields (R100). -/
def wordOf (f : Fields) : Reg32 :=
  (f.rsv.zeroExtend 32 <<< 6) ||| (f.var.zeroExtend 32 <<< 4) ||| f.opcode.zeroExtend 32

/-- A command with a variant operand: 01, 10, 11 select it, 00 is illegal (R102). -/
def decodeInit (var : BitVec 2) (i128 i192 i256 : Instr) : Except DecodeError Instr :=
  match var.toNat with
  | 1 => .ok i128
  | 2 => .ok i192
  | 3 => .ok i256
  | _ => .error .variantMissing

/-- A command without a variant: VAR must be 00 (R102). -/
def decodePlain (var : BitVec 2) (i : Instr) : Except DecodeError Instr :=
  if var = 0 then .ok i else .error .variantGiven

/-- The command of three fields, by the opcode table of R101. -/
def decodeFields (f : Fields) : Except DecodeError Instr :=
  if f.rsv ≠ 0 then .error .reservedBits
  else match f.opcode.toNat with
    | 0x1 => decodeInit f.var .initKeyAes128 .initKeyAes192 .initKeyAes256
    | 0x2 => decodeInit f.var .initKeyIvAes128 .initKeyIvAes192 .initKeyIvAes256
    | 0x3 => decodePlain f.var .setIv
    | 0x4 => decodePlain f.var .getIv
    | 0x5 => decodePlain f.var .ecbEnc
    | 0x6 => decodePlain f.var .ecbDec
    | 0x7 => decodePlain f.var .cbcEnc
    | 0x8 => decodePlain f.var .cbcDec
    | 0x9 => decodePlain f.var .ctrXcrypt
    | 0xA => decodePlain f.var .clear
    | _ => .error .reservedOpcode

/-- Decoding is total and needs only the word (R106). -/
def decode (w : Reg32) : Except DecodeError Instr := decodeFields (fieldsOf w)

/-- The fields of a command (R101, R102). -/
def encodeFields : Instr → Fields
  | .initKeyAes128 => ⟨0, 1, 0x1⟩
  | .initKeyAes192 => ⟨0, 2, 0x1⟩
  | .initKeyAes256 => ⟨0, 3, 0x1⟩
  | .initKeyIvAes128 => ⟨0, 1, 0x2⟩
  | .initKeyIvAes192 => ⟨0, 2, 0x2⟩
  | .initKeyIvAes256 => ⟨0, 3, 0x2⟩
  | .setIv => ⟨0, 0, 0x3⟩
  | .getIv => ⟨0, 0, 0x4⟩
  | .ecbEnc => ⟨0, 0, 0x5⟩
  | .ecbDec => ⟨0, 0, 0x6⟩
  | .cbcEnc => ⟨0, 0, 0x7⟩
  | .cbcDec => ⟨0, 0, 0x8⟩
  | .ctrXcrypt => ⟨0, 0, 0x9⟩
  | .clear => ⟨0, 0, 0xA⟩

/-- The one word of a command (R105, R107). -/
def encode (i : Instr) : Reg32 := wordOf (encodeFields i)

/-- A command is well-formed when its fields are (R105): every command is, since a command has no operand field. -/
abbrev Instr.WellFormed (i : Instr) : Prop := (encodeFields i).WellFormed

/-- The command this decoder reads from a word given as the opcode table numbers its bits. A command is one 32-bit word
(R107) written to CMD as one whole number (R76), so that its bits are the number's; bits above `nbits` are 0, and more
than 32 bits are no command. -/
def decodeTableWord (nbits w : Nat) : Option Instr :=
  if nbits ≤ 32 then
    match decode (BitVec.ofNat 32 (w % 2 ^ nbits)) with
    | .ok i => some i
    | .error _ => none
  else none

end Sys2Proof
end

