-- ==== Sys2Proof/Machine/KeySchedule.lean ====
section
/-! DEFINITION. The key schedule (R170 to R176). -/

namespace Sys2Proof.Machine

/-- The key length in words, Nk (R2, R170). -/
def Variant.nk : Variant → Nat
  | .aes128 => 4
  | .aes192 => 6
  | .aes256 => 8

/-- The round count, Nr (R36, R170). -/
def Variant.nr : Variant → Nat
  | .aes128 => 10
  | .aes192 => 12
  | .aes256 => 14

/-- RotWord: cyclic left rotation by one byte (R173). -/
def rotWord (w : Word) : Word := ⟨w.a1, w.a2, w.a3, w.a0⟩

/-- SubWord: the forward S-box on each byte (R174). -/
def subWord (w : Word) : Word := ⟨sbox w.a0, sbox w.a1, sbox w.a2, sbox w.a3⟩

/-- `(RCON[j], 0x00, 0x00, 0x00)` (R155, R172). -/
def rconWord (j : Nat) : Word := ⟨rcon j, 0, 0, 0⟩

/-- What is added to `w[i-Nk]` to make `w[i]`, from t = `w[i-1]` (R172). -/
def scheduleTerm (nk i : Nat) (t : Word) : Word :=
  if i % nk = 0 then (subWord (rotWord t)).xor (rconWord (i / nk))
  else if nk = 8 ∧ i % nk = 4 then subWord t
  else t

/-- The first Nk words of a key: `w[i] = key[4i..4i+4)` (R171). -/
def keyWords (nk : Nat) (key : List Byte) : List Word :=
  (List.range nk).map fun i => .ofFn fun k => key.getD (4 * i + k) 0

/-- Append n more words to w[0], …, w[i-1] by the recurrence of R172. -/
def expandWords (nk : Nat) : Nat → List Word → List Word
  | 0, ws => ws
  | n + 1, ws =>
    let i := ws.length
    expandWords nk n
      (ws ++ [(ws.getD (i - nk) .zero).xor (scheduleTerm nk i (ws.getD (i - 1) .zero))])

/-- The words of a schedule, w[0] to w[4(Nr+1)-1] (R172). -/
def scheduleWords (key : List Byte) (v : Variant) : List Word :=
  expandWords v.nk (4 * (v.nr + 1) - v.nk) (keyWords v.nk key)

/-- `KeyExpansion(key, v)`: 16(Nr+1) bytes (R172). -/
def keyExpansion (key : List Byte) (v : Variant) : List Byte :=
  (scheduleWords key v).flatMap Word.toList

end Sys2Proof.Machine
end

