-- ==== Sys2Proof/Machine/Ops.lean ====
section
/-! DEFINITION. The named operations over memory and registers: bytes of data memory (R70 to R77), the platform's map
(R79), the fault mark (R51), free values, and ending a command, with an error or without (R300, R303): this core's only
form of taking an exception, which saves nothing and transfers control nowhere (R312) and so has no return (R313). -/

namespace Sys2Proof.Machine

/-- What a byte of data memory that nothing has written reads as (DESIGN CHOICE, unsafe: the spec gives data memory no
contents; log entry 4). -/
def unlistedByte : Byte := 0

/-- The byte at an address (R71). -/
def Memory.read : Memory → Nat → Byte
  | [], _ => unlistedByte
  | (k, v) :: m, a => if k = a then v else Memory.read m a

/-- Put a pair before the first pair with a higher address. -/
def Memory.insert : Memory → Nat → Byte → Memory
  | [], a, b => [(a, b)]
  | (k, v) :: m, a, b => if a < k then (a, b) :: (k, v) :: m else (k, v) :: Memory.insert m a b

/-- Take out every pair of an address. -/
def Memory.erase (m : Memory) (a : Nat) : Memory := m.filter fun c => c.1 != a

/-- Write one byte (R74): the byte an unlisted address reads as is not listed. -/
def Memory.write (m : Memory) (a : Nat) (b : Byte) : Memory :=
  if b = unlistedByte then m.erase a else (m.erase a).insert a b

/-- The addresses rise strictly and stay inside the address space, and no pair holds the byte an unlisted address reads
as: the canonical form. -/
def Memory.wf (m : Memory) : Bool :=
  decide (m.Pairwise fun c d => c.1 < d.1) && m.all fun c => c.2 != unlistedByte && decide (c.1 < Config.addrSpace)

/-- `MemRead(a, n)`: byte k of the result comes from a + k (R9, R71). -/
def Memory.readBytes (m : Memory) (a n : Nat) : List Byte := (List.range n).map fun k => m.read (a + k)

/-- `MemRead(a, 16)` as a block (R71). -/
def Memory.readBlock (m : Memory) (a : Nat) : Block := .ofFn fun k => m.read (a + k)

/-- `MemWrite(a, n, v)` for the n bytes of a list: byte k to a + k, in increasing order (R9, R75). -/
def Memory.writeBytes : Memory → Nat → List Byte → Memory
  | m, _, [] => m
  | m, a, b :: bs => Memory.writeBytes (m.write a b) (a + 1) bs

/-- `MemWrite(a, 16, v)` (R9). -/
def Memory.writeBlock (m : Memory) (a : Nat) (v : Block) : Memory := m.writeBytes a v.toList

/-- What an address leads to on a platform (R77, R79). -/
def Platform.kindAt (p : Platform) (a : Nat) : AddrKind :=
  match p.ranges.find? fun r => decide (r.lo ≤ a ∧ a < r.hi) with
  | some r => r.kind
  | none => .plain

/-- `MemOK(a)`: the platform answers an access at a (R79). -/
def Platform.memOK (p : Platform) (a : Nat) : Bool := p.kindAt a != .unanswered

/-- The first address of a, a + 1, … (n of them) that is not plain memory decides; plain when all are. -/
def Platform.scan (p : Platform) (a : Nat) : Nat → AddrKind
  | 0 => .plain
  | n + 1 =>
    match p.kindAt a with
    | .plain => Platform.scan p (a + 1) n
    | k => k

/-- Set the fault mark; a mark already set stays (R51; log entry 14). -/
def State.mark (s : State) (r : FaultReason) : State :=
  { s with fault := some (s.fault.getD r) }

/-- `STATUS.BUSY` (R42, R49). -/
def State.busy (s : State) : Bool := s.pending.isSome

/-- The next n free bytes. -/
def State.freeBytes (s : State) (n : Nat) : List Byte := (List.range n).map fun k => Config.freeByte (s.freeCtr + k)

/-- n free bytes have been drawn. -/
def State.drawn (s : State) (n : Nat) : State := { s with freeCtr := s.freeCtr + n }

/-- The bytes of [a, a + n) become free values. -/
def State.freeMem (s : State) (a n : Nat) : State :=
  { s with mem := s.mem.writeBytes a (s.freeBytes n) }.drawn n

/-- `ctx.IV` becomes a free value. -/
def State.freeIv (s : State) : State :=
  { s with ctx := { s.ctx with iv := .ofList (s.freeBytes 16) } }.drawn 16

/-- `ctx.SCR` becomes a free value. -/
def State.freeScr (s : State) : State :=
  { s with ctx := { s.ctx with scr := .ofList (s.freeBytes 16) } }.drawn 16

/-- `ctx.RK` becomes a free value. -/
def State.freeRk (s : State) : State :=
  { s with ctx := { s.ctx with rk := .ofBytes (s.freeBytes 240) } }.drawn 240

/-- The key variant that two bits stand for (R31). -/
def variantOfCode (c : BitVec 2) : Option Variant :=
  match c.toNat with
  | 1 => some .aes128
  | 2 => some .aes192
  | 3 => some .aes256
  | _ => none

/-- `ctx.KV` becomes a free value: the low two bits of one free byte. -/
def State.freeKv (s : State) : State :=
  { s with ctx := { s.ctx with kv := variantOfCode ((Config.freeByte s.freeCtr).extractLsb' 0 2) } }.drawn 1

/-- A command ends with an outcome: `STATUS.ERR` holds its code, `pending` is empty, hence BUSY = 0 (R300). -/
def State.finish (s : State) (e : ErrCode) : State :=
  { s with err := e, pending := none, raced := false }

/-- `raise Error(code)` before a command's body: the command ends with the code, and nothing else changes (R303, R312). -/
def State.raiseError (s : State) (e : ErrCode) : State := s.finish e

end Sys2Proof.Machine
end

