-- ==== Sys2Proof/Machine/Operands.lean ====
section
/-! DEFINITION. What each command takes: its kind, its variant, its operands A, B and L (R104), and the regions of data
memory it reaches (R72) with their range check (R78). -/

namespace Sys2Proof.Machine

/-- A half-open range of data-memory addresses [base, base + len), and whether the command reads and writes it (R72). -/
structure Region where
  base : Nat
  len : Nat
  read : Bool
  written : Bool
  deriving DecidableEq, Repr

/-- The mode commands: those that need an established schedule (R301, R305). -/
def isMode : Instr → Bool
  | .ecbEnc | .ecbDec | .cbcEnc | .cbcDec | .ctrXcrypt => true
  | .initKeyAes128 | .initKeyAes192 | .initKeyAes256 => false
  | .initKeyIvAes128 | .initKeyIvAes192 | .initKeyIvAes256 => false
  | .setIv | .getIv | .clear => false

/-- VAR of the two INIT commands (R102). -/
def initVariant : Instr → Option Variant
  | .initKeyAes128 | .initKeyIvAes128 => some .aes128
  | .initKeyAes192 | .initKeyIvAes192 => some .aes192
  | .initKeyAes256 | .initKeyIvAes256 => some .aes256
  | .setIv | .getIv | .ecbEnc | .ecbDec | .cbcEnc | .cbcDec | .ctrXcrypt | .clear => none

/-- The CBC commands, whose buffer length is a multiple of 16 (R307). -/
def isCbc : Instr → Bool
  | .cbcEnc | .cbcDec => true
  | .initKeyAes128 | .initKeyAes192 | .initKeyAes256 => false
  | .initKeyIvAes128 | .initKeyIvAes192 | .initKeyIvAes256 => false
  | .setIv | .getIv | .ecbEnc | .ecbDec | .ctrXcrypt | .clear => false

/-- The regions of a command with latched operands, in the order of its accesses (R72, R75). -/
def regions (i : Instr) (p : Pending) : List Region :=
  let a := p.a.toNat
  let l := p.l.toNat
  match i with
  | .initKeyAes128 | .initKeyAes192 | .initKeyAes256 => [⟨a, l, true, false⟩]
  | .initKeyIvAes128 | .initKeyIvAes192 | .initKeyIvAes256 => [⟨a, l, true, false⟩, ⟨p.b.toNat, 16, true, false⟩]
  | .setIv => [⟨a, 16, true, false⟩]
  | .getIv => [⟨a, 16, false, true⟩]
  | .ecbEnc | .ecbDec => [⟨a, 16, true, true⟩]
  | .cbcEnc | .cbcDec | .ctrXcrypt => [⟨a, l, true, true⟩]
  | .clear => []

/-- A region that ends inside the address space, computed without wrap-around; an empty one always does (R78). -/
def Region.inRange (r : Region) : Bool := r.len == 0 || decide (r.base + r.len ≤ Config.addrSpace)

/-- An address of a region (R72). -/
def Region.holds (r : Region) (a : Nat) : Bool := decide (r.base ≤ a ∧ a < r.base + r.len)

/-- What the accesses of a body meet, in their order: the first address that is not plain memory decides (R75, R79;
log entry 29). -/
def scanRegions (pf : Platform) : List Region → AddrKind
  | [] => .plain
  | r :: rs =>
    match pf.scan r.base r.len with
    | .plain => scanRegions pf rs
    | k => k

/-- `Nr(ctx.KV)` (R36). At NONE it is undefined and no command evaluates it, since every command that uses it first
checks `ctx.KV` ≠ NONE (R305; log entry 19). -/
def Ctx.nr (c : Ctx) : Nat :=
  match c.kv with
  | some v => v.nr
  | none => 0

end Sys2Proof.Machine
end

