-- ==== Sys2Proof/Machine/Flags.lean ====
section
/-! DEFINITION. The STATUS word (R41 to R45), its codes (R31, R301), and the checks that set STATUS.ERR (R302). -/

namespace Sys2Proof.Machine

/-- The 2-bit encoding of `ctx.KV` (R31, R45). -/
def kvCode : Option Variant → BitVec 2
  | none => 0
  | some .aes128 => 1
  | some .aes192 => 2
  | some .aes256 => 3

/-- The 4-bit code of an outcome (R301). -/
def ErrCode.code : ErrCode → BitVec 4
  | .ok => 0
  | .invalidKeyLength => 1
  | .invalidBufferLength => 2
  | .uninitializedContext => 3
  | .illegalCommand => 4
  | .addressRange => 5
  | .busFault => 6

/-- One bit of a Bool. -/
def flagBit (b : Bool) : Reg32 := if b then 1 else 0

/-- What a read of STATUS returns: `BUSY | OVR<<1 | ERR<<4 | KEYVAR<<8` (R41). -/
def statusWord (s : State) : Reg32 :=
  flagBit s.busy ||| (flagBit s.ovr <<< 1) ||| (s.err.code.zeroExtend 32 <<< 4) |||
    ((kvCode s.ctx.kv).zeroExtend 32 <<< 8)

/-- UninitializedContext: a mode command while `ctx.KV` = NONE (R305). -/
def uninitialized (i : Instr) (kv : Option Variant) : Bool := isMode i && kv.isNone

/-- InvalidKeyLength: an INIT command with L ≠ 4·Nk(VAR) (R306). -/
def badKeyLength (i : Instr) (p : Pending) : Bool :=
  match initVariant i with
  | some v => p.l.toNat != 4 * v.nk
  | none => false

/-- InvalidBufferLength: a CBC command with L mod 16 ≠ 0 (R307). -/
def badBufferLength (i : Instr) (p : Pending) : Bool := isCbc i && p.l.toNat % 16 != 0

/-- AddressRange: a region of the command runs past 2^32 (R308). -/
def badRange (i : Instr) (p : Pending) : Bool := !(regions i p).all Region.inRange

/-- `Check` for a legal command, conditions 2 to 5 in their order; condition 1, an illegal word, is the decoder's
(R302). -/
def check (i : Instr) (p : Pending) (kv : Option Variant) : ErrCode :=
  if uninitialized i kv then .uninitializedContext
  else if badKeyLength i p then .invalidKeyLength
  else if badBufferLength i p then .invalidBufferLength
  else if badRange i p then .addressRange
  else .ok

/-- The regions the pending command reaches: none when its word is illegal or a check fails, since a command that raises
an error before its body reaches no region (R72; log entry 21). -/
def reachedRegions (s : State) : List Region :=
  match s.pending with
  | none => []
  | some p =>
    match decode p.w with
    | .error _ => []
    | .ok i => if check i p s.ctx.kv = .ok then regions i p else []

end Sys2Proof.Machine
end

