-- ==== Sys2Proof/Machine/Complete.lean ====
section
/-! DEFINITION. The core's step Complete, shared by every command (R300): check, body, outcome; and what a bus fault (R309)
and a host race (R345) leave unspecified. -/

namespace Sys2Proof.Machine

/-- The bytes of each region become free values. -/
def State.freeRegions (s : State) (rs : List Region) : State := rs.foldl (fun t r => t.freeMem r.base r.len) s

/-- A bus fault inside a command's body (R309): the mark is set, the command's write regions, `ctx.IV` and `ctx.SCR`,
and for the INIT commands `ctx.KV` and `ctx.RK` too, are free values, and the command ends with code 6 (log entry 8). -/
def takeBusFault (i : Instr) (p : Pending) (s : State) : State :=
  let s := ((s.freeRegions ((regions i p).filter (·.written))).freeIv.freeScr).mark .busFault
  if (initVariant i).isSome then s.freeKv.freeRk else s

/-- What a host race on the command leaves unspecified when the command ends (R345): the command's regions, `ctx.IV` and
`ctx.SCR`; and `ctx.RK` for the INIT commands, whose key the host may have changed (log entries 10 and 11). Nothing when
there was no race. -/
def settleRace (i : Instr) (p : Pending) (s : State) : State :=
  if s.raced then
    let s := (s.freeRegions (regions i p)).freeIv.freeScr
    if (initVariant i).isSome then s.freeRk else s
  else s

/-- Complete, for the command i with latched operands `pending` and the given body (R300). -/
def complete (i : Instr) (body : Pending → State → State) (s : State) : Host.Outcome State Fault Refusal :=
  match s.pending with
  | none => .fault .nothingPending
  | some p =>
    match check i p s.ctx.kv with
    | .ok =>
      match scanRegions s.platform (regions i p) with
      | .plain => .next ((settleRace i p (body p s)).finish .ok)
      | .unanswered => .next ((settleRace i p (takeBusFault i p s)).finish .busFault)
      | .device => .refused .deviceAccess
    | e => .next (s.raiseError e)

/-- `f j`, then `f (j + 1)`, …, n of them, each on what the one before leaves: the block loop of the mode commands (R9). -/
def forBlocks {α : Type} (f : Nat → α → α) : Nat → Nat → α → α
  | 0, _, r => r
  | n + 1, j, r => forBlocks f n (j + 1) (f j r)

/-- What a block loop carries: data memory, the chaining value or counter, and the scratch block. -/
structure Run where
  mem : Memory
  iv : Block
  scr : Block
  deriving DecidableEq, Repr

/-- The loop's part of a state. -/
def State.run (s : State) : Run := ⟨s.mem, s.ctx.iv, s.ctx.scr⟩

/-- A state with what a loop leaves. -/
def State.withRun (s : State) (r : Run) : State :=
  { s with mem := r.mem, ctx := { s.ctx with iv := r.iv, scr := r.scr } }

end Sys2Proof.Machine
end

