-- ==== Sys2Proof/Machine/Cbc.lean ====
section
/-! DEFINITION. The CBC mode commands and XOR chaining (R260 to R262). In a run, `iv` is the chaining value cv. -/

namespace Sys2Proof.Machine

/-- Block j of CBC_ENC (R260). -/
def cbcEncBlock (rk : Schedule) (nr a j : Nat) (r : Run) : Run :=
  let p := r.mem.readBlock (a + 16 * j)
  let c := cipher (p.xor r.iv) rk nr
  { mem := r.mem.writeBlock (a + 16 * j) c, iv := c, scr := r.scr }

/-- Block j of CBC_DEC: the ciphertext is saved before its bytes are overwritten (R261). -/
def cbcDecBlock (rk : Schedule) (nr a j : Nat) (r : Run) : Run :=
  let c := r.mem.readBlock (a + 16 * j)
  let p := invCipher c rk nr
  { mem := r.mem.writeBlock (a + 16 * j) (p.xor r.iv), iv := c, scr := c }

/-- The body of CBC_ENC: n = L / 16 blocks (R260). -/
def cbcEncBody (p : Pending) (s : State) : State :=
  s.withRun (forBlocks (cbcEncBlock s.ctx.rk s.ctx.nr p.a.toNat) (p.l.toNat / 16) 0 s.run)

/-- The body of CBC_DEC: n = L / 16 blocks (R261). -/
def cbcDecBody (p : Pending) (s : State) : State :=
  s.withRun (forBlocks (cbcDecBlock s.ctx.rk s.ctx.nr p.a.toNat) (p.l.toNat / 16) 0 s.run)

/-- CBC_ENC (R260). -/
def execCbcEnc (s : State) : Host.Outcome State Fault Refusal := complete .cbcEnc cbcEncBody s

/-- CBC_DEC (R261). -/
def execCbcDec (s : State) : Host.Outcome State Fault Refusal := complete .cbcDec cbcDecBody s

end Sys2Proof.Machine
end

