-- ==== Sys2Proof/Machine/Context.lean ====
section
/-! DEFINITION. The context commands (R220 to R224). -/

namespace Sys2Proof.Machine

/-- The body of INIT_KEY (R220). -/
def initKeyBody (v : Variant) (p : Pending) (s : State) : State :=
  let key := s.mem.readBytes p.a.toNat p.l.toNat
  { s with ctx := { kv := some v, rk := .ofBytes (keyExpansion key v), iv := .zero, scr := s.ctx.scr } }

/-- The body of INIT_KEY_IV (R221). -/
def initKeyIvBody (v : Variant) (p : Pending) (s : State) : State :=
  let key := s.mem.readBytes p.a.toNat p.l.toNat
  let iv := s.mem.readBlock p.b.toNat
  { s with ctx := { kv := some v, rk := .ofBytes (keyExpansion key v), iv := iv, scr := s.ctx.scr } }

/-- The body of SET_IV (R222). -/
def setIvBody (p : Pending) (s : State) : State :=
  { s with ctx := { s.ctx with iv := s.mem.readBlock p.a.toNat } }

/-- The body of GET_IV (R223). -/
def getIvBody (p : Pending) (s : State) : State :=
  { s with mem := s.mem.writeBlock p.a.toNat s.ctx.iv }

/-- The body of CLEAR (R224). -/
def clearBody (_ : Pending) (s : State) : State :=
  { s with ctx := { kv := none, rk := .zero, iv := .zero, scr := .zero } }

/-- INIT_KEY.AES128 (R220). -/
def execInitKeyAes128 (s : State) : Host.Outcome State Fault Refusal :=
  complete .initKeyAes128 (initKeyBody .aes128) s

/-- INIT_KEY.AES192 (R220). -/
def execInitKeyAes192 (s : State) : Host.Outcome State Fault Refusal :=
  complete .initKeyAes192 (initKeyBody .aes192) s

/-- INIT_KEY.AES256 (R220). -/
def execInitKeyAes256 (s : State) : Host.Outcome State Fault Refusal :=
  complete .initKeyAes256 (initKeyBody .aes256) s

/-- INIT_KEY_IV.AES128 (R221). -/
def execInitKeyIvAes128 (s : State) : Host.Outcome State Fault Refusal :=
  complete .initKeyIvAes128 (initKeyIvBody .aes128) s

/-- INIT_KEY_IV.AES192 (R221). -/
def execInitKeyIvAes192 (s : State) : Host.Outcome State Fault Refusal :=
  complete .initKeyIvAes192 (initKeyIvBody .aes192) s

/-- INIT_KEY_IV.AES256 (R221). -/
def execInitKeyIvAes256 (s : State) : Host.Outcome State Fault Refusal :=
  complete .initKeyIvAes256 (initKeyIvBody .aes256) s

/-- SET_IV (R222). -/
def execSetIv (s : State) : Host.Outcome State Fault Refusal := complete .setIv setIvBody s

/-- GET_IV (R223). -/
def execGetIv (s : State) : Host.Outcome State Fault Refusal := complete .getIv getIvBody s

/-- CLEAR (R224). -/
def execClear (s : State) : Host.Outcome State Fault Refusal := complete .clear clearBody s

end Sys2Proof.Machine
end

