-- ==== Sys2Proof/Machine/Ctr.lean ====
section
/-! DEFINITION. The CTR mode command and its counter (R280 to R282). In a run, `iv` is the counter block. -/

namespace Sys2Proof.Machine

/-- Increment from the last byte on: a byte FF becomes 00 and carries into the next of the list (R280). -/
def incBytes : List Byte → List Byte
  | [] => []
  | b :: bs => if b = 0xFF then 0x00 :: incBytes bs else (b + 1) :: bs

/-- `Inc128(c)`: byte 15 first, the carry going leftward through byte 0 (R280). -/
def inc128 (c : Block) : Block := .ofList (incBytes c.toList.reverse).reverse

/-- `s ^ t` of two byte sequences of equal length (R8). -/
def xorBytes (s t : List Byte) : List Byte := List.zipWith (· ^^^ ·) s t

/-- Chunk j of CTR_XCRYPT: a keystream block from a copy of the counter, the available bytes exclusive-ored, the counter
incremented (R281). -/
def ctrChunk (rk : Schedule) (nr a l j : Nat) (r : Run) : Run :=
  let scr := cipher r.iv rk nr
  let m := min 16 (l - 16 * j)
  let d := r.mem.readBytes (a + 16 * j) m
  { mem := r.mem.writeBytes (a + 16 * j) (xorBytes d (scr.toList.take m)), iv := inc128 r.iv, scr := scr }

/-- The body of CTR_XCRYPT: ceil(L / 16) chunks (R281). -/
def ctrBody (p : Pending) (s : State) : State :=
  s.withRun (forBlocks (ctrChunk s.ctx.rk s.ctx.nr p.a.toNat p.l.toNat) ((p.l.toNat + 15) / 16) 0 s.run)

/-- CTR_XCRYPT (R281). -/
def execCtrXcrypt (s : State) : Host.Outcome State Fault Refusal := complete .ctrXcrypt ctrBody s

end Sys2Proof.Machine
end

