-- ==== Sys2Proof/Machine/Ecb.lean ====
section
/-! DEFINITION. The ECB mode commands (R240, R241). -/

namespace Sys2Proof.Machine

/-- The body of ECB_ENC (R240). -/
def ecbEncBody (p : Pending) (s : State) : State :=
  let b := s.mem.readBlock p.a.toNat
  { s with mem := s.mem.writeBlock p.a.toNat (cipher b s.ctx.rk s.ctx.nr) }

/-- The body of ECB_DEC (R241). -/
def ecbDecBody (p : Pending) (s : State) : State :=
  let c := s.mem.readBlock p.a.toNat
  { s with mem := s.mem.writeBlock p.a.toNat (invCipher c s.ctx.rk s.ctx.nr) }

/-- ECB_ENC (R240). -/
def execEcbEnc (s : State) : Host.Outcome State Fault Refusal := complete .ecbEnc ecbEncBody s

/-- ECB_DEC (R241). -/
def execEcbDec (s : State) : Host.Outcome State Fault Refusal := complete .ecbDec ecbDecBody s

end Sys2Proof.Machine
end

