-- ==== Sys2Proof/Machine/Dispatch.lean ====
section
/-! DEFINITION. The body table of R300: which meaning each command has. -/

namespace Sys2Proof.Machine

def exec (i : Instr) (s : State) : Host.Outcome State Fault Refusal :=
  match i with
  | .initKeyAes128 => Sys2Proof.Machine.execInitKeyAes128 s
  | .initKeyAes192 => Sys2Proof.Machine.execInitKeyAes192 s
  | .initKeyAes256 => Sys2Proof.Machine.execInitKeyAes256 s
  | .initKeyIvAes128 => Sys2Proof.Machine.execInitKeyIvAes128 s
  | .initKeyIvAes192 => Sys2Proof.Machine.execInitKeyIvAes192 s
  | .initKeyIvAes256 => Sys2Proof.Machine.execInitKeyIvAes256 s
  | .setIv => Sys2Proof.Machine.execSetIv s
  | .getIv => Sys2Proof.Machine.execGetIv s
  | .ecbEnc => Sys2Proof.Machine.execEcbEnc s
  | .ecbDec => Sys2Proof.Machine.execEcbDec s
  | .cbcEnc => Sys2Proof.Machine.execCbcEnc s
  | .cbcDec => Sys2Proof.Machine.execCbcDec s
  | .ctrXcrypt => Sys2Proof.Machine.execCtrXcrypt s
  | .clear => Sys2Proof.Machine.execClear s

end Sys2Proof.Machine
end

