-- ==== Sys2Proof/Machine/HostBus.lean ====
section
/-! DEFINITION. The host's side: the register window (R40, R47, R48, R76), the data memory and the region hazard (R70, R345),
WAIT (R108), and reset (R340, R341). -/

namespace Sys2Proof.Machine

/-- A register of the window (R47). -/
inductive RegName where
  | cmd
  | opa
  | opb
  | oplen
  | status
  | reserved
  deriving DecidableEq, Repr

/-- The register at an offset that is a multiple of 4, 0x00 to 0x1C (R47). -/
def regAt (offset : Nat) : RegName :=
  match offset with
  | 0x00 => .cmd
  | 0x04 => .opa
  | 0x08 => .opb
  | 0x0C => .oplen
  | 0x10 => .status
  | _ => .reserved

/-- How many bytes an access is wide. -/
def AccessSize.bytes : AccessSize → Nat
  | .byte => 1
  | .half => 2
  | .word => 4
  | .wide extra => 4 + (extra + 1)

/-- Where an access lands. -/
inductive WindowHit where
  /-- It touches no byte of the window. -/
  | outside
  /-- It touches the window and is not an aligned 32-bit access (R76). -/
  | refused
  /-- An aligned 32-bit access to a register (R47). -/
  | register (r : RegName)
  deriving DecidableEq, Repr

/-- Where an access at an address lands, for a window of 32 bytes at `AES_BASE` (R47, R76). The offset is taken modulo
2^32, so that an access that begins before the window and reaches into it touches it too, and a window that begins less
than 32 bytes below 2^32 goes on at address 0. DESIGN CHOICE, unsafe: the spec gives the register bus no width, and the
32 bits are the model's (log entry 30). -/
def windowHit (base addr : BusAddr) (size : AccessSize) : WindowHit :=
  let off := (addr - base).toNat
  if off < 32 then
    if size = .word ∧ off % 4 = 0 then .register (regAt off) else .refused
  else if Config.busSpace < off + size.bytes then .refused
  else .outside

/-- A write of W to CMD (R40): accepted with the operands latched when BUSY = 0, else dropped with OVR set. -/
def cmdWrite (w : Reg32) (s : State) : State :=
  if s.busy then { s with ovr := true }
  else { s with
    pending := some ⟨w, s.opa, s.opb, s.oplen⟩
    ovr := false
    err := .ok
    raced := false }

/-- What a read of a register returns (R37 to R41, R47). -/
def regValue (r : RegName) (s : State) : Reg32 :=
  match r with
  | .cmd => 0
  | .opa => s.opa
  | .opb => s.opb
  | .oplen => s.oplen
  | .status => statusWord s
  | .reserved => 0

/-- A write to a register (R48): only CMD, OPA, OPB and OPLEN have an effect. -/
def regStore (r : RegName) (v : Reg32) (s : State) : State :=
  match r with
  | .cmd => cmdWrite v s
  | .opa => { s with opa := v }
  | .opb => { s with opb := v }
  | .oplen => { s with oplen := v }
  | .status => s
  | .reserved => s

/-- A host read has returned a value. -/
def State.returning (s : State) (v : Reg32) : State := { s with hostRead := some v }

/-- Four free bytes as a 32-bit value. -/
def freeReg32 (s : State) : Reg32 := BitVec.ofNat 32 (natOfBytesBE (s.freeBytes 4))

/-- A host read on the register bus: a read has no side effect (R48); an access that is not an aligned 32-bit one is
refused with the mark set, and what it returns is free (R76; log entry 13), of which 32 bits are kept for an access of any
width (log entry 34). -/
def hostRegRead (addr : BusAddr) (size : AccessSize) (s : State) : Host.Outcome State Fault Refusal :=
  match windowHit s.platform.aesBase addr size with
  | .outside => .refused .outsideWindow
  | .refused => .next (((s.returning (freeReg32 s)).drawn 4).mark .registerAccessRefused)
  | .register r => .next (s.returning (regValue r s))

/-- A host write on the register bus (R40, R48, R76; log entry 13). -/
def hostRegWrite (addr : BusAddr) (size : AccessSize) (v : Reg32) (s : State) : Host.Outcome State Fault Refusal :=
  match windowHit s.platform.aesBase addr size with
  | .outside => .refused .outsideWindow
  | .refused => .next (s.mark .registerAccessRefused)
  | .register r => .next (regStore r v s)

/-- WAIT (R108): a read of STATUS, repeated after a turn of the core while BUSY reads 1 (R300: completion is taken in
the end; log entry 22). -/
def hostWait (s : State) : State :=
  let t := s.returning (statusWord s)
  if s.busy then { t with schedule := .core :: .host .wait :: s.schedule } else t

/-- An address lies in a region of the pending command (R345). -/
def inPendingRegion (s : State) (a : Nat) : Bool := (reachedRegions s).any (·.holds a)

/-- A host access to a region of the pending command: the mark is set, and the race is remembered until the command
ends (R345). -/
def State.race (s : State) : State := { s with raced := true }.mark .hostRace

/-- A host read of a byte of the pending command's regions is a race and returns a free byte, whether or not the platform
answers there (R345; log entry 10). -/
def racingRead (s : State) : State :=
  ((s.returning ((Config.freeByte s.freeCtr).zeroExtend 32)).drawn 1).race

/-- A host write of a byte of the pending command's regions is a race: the byte is stored where the platform answers, and is
a free value where it does not (R345; log entry 10). -/
def racingWrite (a : Nat) (v : Byte) (s : State) : State :=
  (if s.platform.memOK a then { s with mem := s.mem.write a v } else s.freeMem a 1).race

/-- A host read of one byte of data memory: a race in a region of the pending command (R345); elsewhere it returns the byte
and changes nothing (R77), and stops where the platform does not answer (log entry 15). -/
def hostMemRead (addr : Addr) (s : State) : Host.Outcome State Fault Refusal :=
  let a := addr.toNat
  match s.platform.kindAt a with
  | .device => .refused .deviceAccess
  | .plain =>
    if inPendingRegion s a then .next (racingRead s)
    else .next (s.returning ((s.mem.read a).zeroExtend 32))
  | .unanswered => if inPendingRegion s a then .next (racingRead s) else .fault .unansweredHostAccess

/-- A host write of one byte of data memory: a race in a region of the pending command (R345); elsewhere it stores the byte
(R77), and stops where the platform does not answer (log entry 15). -/
def hostMemWrite (addr : Addr) (v : Byte) (s : State) : Host.Outcome State Fault Refusal :=
  let a := addr.toNat
  match s.platform.kindAt a with
  | .device => .refused .deviceAccess
  | .plain =>
    if inPendingRegion s a then .next (racingWrite a v s)
    else .next { s with mem := s.mem.write a v }
  | .unanswered => if inPendingRegion s a then .next (racingWrite a v s) else .fault .unansweredHostAccess

/-- Every element of the core's state at its reset value; data memory, the mark and what is not the core's stay (R340;
log entry 14). -/
def resetCore (s : State) : State :=
  { s with
    ctx := .reset
    opa := 0
    opb := 0
    oplen := 0
    ovr := false
    err := .ok
    pending := none
    raced := false }

/-- The reset input. While a command is pending it is abandoned, the mark is set, and the bytes of its write regions (of
all its regions, if a host raced it) are free values (R340, R341, R345; log entry 12). -/
def hostReset (s : State) : State :=
  if s.busy then
    resetCore ((s.freeRegions ((reachedRegions s).filter fun r => r.written || s.raced)).mark .resetDuringBusy)
  else resetCore s

/-- One step of the host (R316). -/
def hostStep (op : HostOp) (s : State) : Host.Outcome State Fault Refusal :=
  match op with
  | .regRead addr size => hostRegRead addr size s
  | .regWrite addr size v => hostRegWrite addr size v s
  | .wait => .next (hostWait s)
  | .memRead addr => hostMemRead addr s
  | .memWrite addr v => hostMemWrite addr v s
  | .reset => .next (hostReset s)

end Sys2Proof.Machine
end

