-- ==== Sys2Proof/Machine/Agents.lean ====
section
/-! DEFINITION. The two agents' turns (R316): the core completes the pending command (R300), or stays idle (R317, R340); the
host takes its step. Also how one command is placed for the core's next turn. -/

namespace Sys2Proof.Machine

/-- The core's turn: its only step is Complete, enabled exactly when `pending` is not empty (R300, R316). An illegal word
completes with IllegalCommand and no other effect (R304). With nothing pending the core waits. -/
def coreTurn (s : State) : Host.Outcome State Fault Refusal :=
  match s.pending with
  | none => .next s
  | some p =>
    match decode p.w with
    | .ok i => exec i s
    | .error _ => .next (s.raiseError .illegalCommand)

/-- The turn of whoever is next. With no turn left the host has finished, and the core has the turn (R300; log entry
2). -/
def takeTurn (s : State) : Host.Outcome State Fault Refusal :=
  match s.schedule with
  | [] => coreTurn s
  | .core :: rest => coreTurn { s with schedule := rest }
  | .host op :: rest => hostStep op { s with schedule := rest }

/-- The word W accepted in place of whatever is pending, with the operands latched as R40 says, and the turn given to
the core. -/
def placeCommand (s : State) (w : Reg32) : State :=
  { s with
    pending := some ⟨w, s.opa, s.opb, s.oplen⟩
    ovr := false
    err := .ok
    raced := false
    schedule := .core :: s.schedule }

end Sys2Proof.Machine
end

