-- ==== Sys2Proof/Machine/HostProgram.lean ====
section
/-! DEFINITION. Host-program syntax and the pseudo-instructions (R108, R109): each expands to register writes, one CMD write
and a WAIT. -/

namespace Sys2Proof.Machine

/-- A pseudo-instruction of R109. -/
inductive Pseudo where
  | initKey (v : Variant) (ka : Addr) (kl : Reg32)
  | initKeyIv (v : Variant) (ka : Addr) (kl : Reg32) (ia : Addr)
  | setIv (ia : Addr)
  | getIv (da : Addr)
  | ecbEnc (a : Addr)
  | ecbDec (a : Addr)
  | cbcEnc (a : Addr) (n : Reg32)
  | cbcDec (a : Addr) (n : Reg32)
  | ctrXcrypt (a : Addr) (n : Reg32)
  | clear
  | ecbEncBuf (a : Addr) (n : Reg32)
  | ecbDecBuf (a : Addr) (n : Reg32)
  deriving DecidableEq, Repr

/-- The offset of a register (R47); a reserved register stands for 0x14. -/
def regOffset : RegName → BusAddr
  | .cmd => 0x00
  | .opa => 0x04
  | .opb => 0x08
  | .oplen => 0x0C
  | .status => 0x10
  | .reserved => 0x14

/-- `WR <reg>, <value>` (R108). -/
def wr (base : BusAddr) (r : RegName) (v : Reg32) : Turn := .host (.regWrite (base + regOffset r) .word v)

/-- `RD <reg>` (R108). -/
def rd (base : BusAddr) (r : RegName) : Turn := .host (.regRead (base + regOffset r) .word)

/-- `WR CMD, …; WAIT` (R109). -/
def issue (base : BusAddr) (w : Reg32) : List Turn := [wr base .cmd w, .host .wait]

/-- The word of INIT_KEY, `0x01 | code(v)<<4` (R109). -/
def initKeyWord : Variant → Reg32
  | .aes128 => 0x01 ||| (1 <<< 4)
  | .aes192 => 0x01 ||| (2 <<< 4)
  | .aes256 => 0x01 ||| (3 <<< 4)

/-- The word of INIT_KEY_IV, `0x02 | code(v)<<4` (R109). -/
def initKeyIvWord : Variant → Reg32
  | .aes128 => 0x02 ||| (1 <<< 4)
  | .aes192 => 0x02 ||| (2 <<< 4)
  | .aes256 => 0x02 ||| (3 <<< 4)

/-- The caller's loop: one command per 16-byte chunk, k = 0 to n/16 - 1 (R109). DESIGN CHOICE, unsafe: the spec does not say
what OPA is written with when a + 16k passes 2^32, and the model writes it modulo 2^32 (log entry 31); the spec gives the
form only for n a multiple of 16, and for any other n the model rounds n/16 down (log entry 32). -/
def bufLoop (base : BusAddr) (a : Addr) (n w : Reg32) : List Turn :=
  (List.range (n.toNat / 16)).flatMap fun k =>
    wr base .opa (a + BitVec.ofNat 32 (16 * k)) :: issue base w

/-- The expansion of a pseudo-instruction (R109), for a window at `base`. -/
def Pseudo.expand (base : BusAddr) : Pseudo → List Turn
  | .initKey v ka kl => wr base .opa ka :: wr base .oplen kl :: issue base (initKeyWord v)
  | .initKeyIv v ka kl ia => wr base .opa ka :: wr base .opb ia :: wr base .oplen kl :: issue base (initKeyIvWord v)
  | .setIv ia => wr base .opa ia :: issue base 0x03
  | .getIv da => wr base .opa da :: issue base 0x04
  | .ecbEnc a => wr base .opa a :: issue base 0x05
  | .ecbDec a => wr base .opa a :: issue base 0x06
  | .cbcEnc a n => wr base .opa a :: wr base .oplen n :: issue base 0x07
  | .cbcDec a n => wr base .opa a :: wr base .oplen n :: issue base 0x08
  | .ctrXcrypt a n => wr base .opa a :: wr base .oplen n :: issue base 0x09
  | .clear => issue base 0x0A
  | .ecbEncBuf a n => bufLoop base a n 0x05
  | .ecbDecBuf a n => bufLoop base a n 0x06

end Sys2Proof.Machine
end

