-- ==== Sys2Proof/Safety.lean ====
section
/-! DEFINITION. What counts as the end of a run and as a sound state, and the shapes of answer that statements about commands
share. -/

namespace Sys2Proof.Machine

/-- No event with an unspecified result has happened (R51). -/
abbrev State.Unmarked (s : State) : Prop := s.fault = none

/-- The host program has finished: no turn of a host is left; turns of the core may be. DESIGN CHOICE, safe: the spec does
not say what the host's having finished is in a state of the machine (log entry 33). -/
abbrev State.HostFinished (s : State) : Prop := ∀ t ∈ s.schedule, t = .core

/-- The end of a run: `pending` empty, the mark empty, the host finished (R318). -/
abbrev State.Final (s : State) : Prop := s.pending = none ∧ s.fault = none ∧ s.HostFinished

/-- Bytes of the schedule past 16(Nr+1) are zero, all of it while no schedule is established (R32, R224, R340). -/
def Ctx.TailZero (c : Ctx) : Prop :=
  match c.kv with
  | some v => ∀ k, 16 * (v.nr + 1) ≤ k → c.rk.byte k = 0
  | none => c.rk = .zero

/-- What every step keeps: memory is in its canonical form; a race is remembered only of a pending command, and with
the mark set; and while no event with an unspecified result has happened, the unused part of the schedule is zero. -/
structure State.Inv (s : State) : Prop where
  mem_wf : s.mem.wf = true
  raced_marked : s.raced = true → s.pending ≠ none ∧ s.fault ≠ none
  tail_zero : s.fault = none → s.ctx.TailZero

/-- The n addresses from x on are plain memory: the platform answers each, and none maps a device (R77, R79). -/
abbrev PlainFrom (s : State) (x n : Nat) : Prop := ∀ k, k < n → s.platform.kindAt (x + k) = .plain

/-- p is pending, and no host has raced it (R49, R345). -/
abbrev State.Runs (s : State) (p : Pending) : Prop := s.pending = some p ∧ s.raced = false

/-- The command ends with an error code, BUSY = 0 and `pending` empty, and changes nothing else (R303). -/
abbrev EndsWithError (i : Instr) (s : State) (e : ErrCode) : Prop :=
  exec i s = .next { s with err := e, pending := none, raced := false }

/-- The command completes in t, with code 0, BUSY = 0 and `pending` empty (R300), and everything but data memory and the
context is as it was. -/
abbrev Completes (i : Instr) (s t : State) : Prop :=
  exec i s = .next t ∧
    t = { s with mem := t.mem, ctx := t.ctx, err := .ok, pending := none, raced := false }

/-- An address of the command's regions that the platform does not answer, with no device among them, ends the command with
BusFault, BUSY = 0 and `pending` empty, and sets the mark (R79, R309). -/
abbrev BusFaults (i : Instr) (s : State) (p : Pending) : Prop :=
  (∃ r ∈ regions i p, ∃ k, k < r.len ∧ s.platform.memOK (r.base + k) = false) →
  (∀ r ∈ regions i p, ∀ k, k < r.len → s.platform.kindAt (r.base + k) ≠ .device) →
  ∃ t, exec i s = .next t ∧ t.err = .busFault ∧ t.pending = none ∧ t.fault ≠ none

/-- Every byte of memory outside the n bytes from x on reads in t as in s. -/
abbrev KeepsMemoryOutside (s t : State) (x n : Nat) : Prop :=
  ∀ a, a < x ∨ x + n ≤ a → t.mem.read a = s.mem.read a

/-- Every byte of memory reads in t as in s. -/
abbrev KeepsMemory (s t : State) : Prop := ∀ a, t.mem.read a = s.mem.read a

end Sys2Proof.Machine
end

