-- ==== Sys2Proof/Certificates/Slice0/Obligations.lean ====
section
/-! DEFINITION. The statements about this machine, for the provers. Each docstring names the rules of spec/ it formalises; a
statement that rests on the model's own choice says so and names the log entry. -/

open Sys2Proof Sys2Proof.Machine

/-! ### Encoding -/

/-- Words written out from R101 and R102 decode to their commands, and the illegal examples of R304 do not decode. -/
def Obligations.SampleWordsDecode : Prop :=
  decode 0b00000000000000000000000000010001 = .ok .initKeyAes128 ∧
  decode 0b00000000000000000000000000110010 = .ok .initKeyIvAes256 ∧
  decode 0b00000000000000000000000000000011 = .ok .setIv ∧
  decode 0b00000000000000000000000000000101 = .ok .ecbEnc ∧
  decode 0b00000000000000000000000000001000 = .ok .cbcDec ∧
  decode 0b00000000000000000000000000001001 = .ok .ctrXcrypt ∧
  decode 0b00000000000000000000000000001010 = .ok .clear ∧
  decode 0x00 = .error .reservedOpcode ∧ decode 0x0B = .error .reservedOpcode ∧
  decode 0x01 = .error .variantMissing ∧ decode 0x15 = .error .variantGiven ∧
  decode 0x45 = .error .reservedBits

/-- Decoding and encoding are inverse to each other on all commands and all 2^32 words (R105, R106): the word of a command
decodes to it, and no other word does; and the fields of R100 are exactly the word. -/
def Obligations.DecodeEncodeRoundTrip : Prop :=
  (∀ i, decode (encode i) = .ok i) ∧
  (∀ w i, decode w = .ok i → w = encode i) ∧
  (∀ w, wordOf (fieldsOf w) = w) ∧
  (∀ f, fieldsOf (wordOf f) = f)

/-- Which of the 2^32 words are legal, by their fields and by the list of fourteen, and that an illegal word, once
accepted, completes in the core's turn with IllegalCommand and no other effect (R105, R106). `raced` is the model's own
bookkeeping (log entry 28). -/
def Obligations.LegalWordsAreTheFourteen : Prop :=
  (∀ w, (∃ i, decode w = .ok i) ↔
    (fieldsOf w).rsv = 0 ∧
      (((fieldsOf w).opcode ∈ [1#4, 2#4] ∧ (fieldsOf w).var ∈ [1#2, 2#2, 3#2]) ∨
       ((fieldsOf w).opcode ∈ [3#4, 4#4, 5#4, 6#4, 7#4, 8#4, 9#4, 10#4] ∧ (fieldsOf w).var = 0))) ∧
  (∀ w, (∃ i, decode w = .ok i) ↔
    w ∈ [0x11#32, 0x21#32, 0x31#32, 0x12#32, 0x22#32, 0x32#32, 0x03#32, 0x04#32, 0x05#32, 0x06#32, 0x07#32, 0x08#32,
      0x09#32, 0x0A#32]) ∧
  (∀ (s : State) (p : Pending), s.pending = some p → (¬ ∃ i, decode p.w = .ok i) →
    coreTurn s = .next { s with err := .illegalCommand, pending := none, raced := false })

/-! ### The step -/

/-- A step runs the decoded command: when the latch holds the word of a command and the core has the turn, step is exec of
that command, on the state with the turn taken off the schedule (R300); and when it holds an illegal word, step ends it with
IllegalCommand (R304). The schedule is the model's, and that an empty one gives the core the turn is its choice too (log
entries 1 and 2). -/
def Obligations.StepRunsPendingCommand : Prop :=
  (∀ (s : State) (p : Pending) (i : Instr), s.pending = some p → decode p.w = .ok i →
    (s.schedule = [] → step s = exec i s) ∧
    (∀ rest, s.schedule = .core :: rest → step s = exec i { s with schedule := rest })) ∧
  (∀ (s : State) (p : Pending) (e : DecodeError), s.pending = some p → decode p.w = .error e →
    (s.schedule = [] → step s = .next { s with err := .illegalCommand, pending := none, raced := false }) ∧
    (∀ rest, s.schedule = .core :: rest →
      step s = .next { s with schedule := rest, err := .illegalCommand, pending := none, raced := false }))

/-- With nothing pending the core stays idle with everything kept (R317, R340), and a host's turn is the host's step. -/
def Obligations.IdleCoreKeepsEverything : Prop :=
  (∀ s : State, s.pending = none → s.schedule = [] → step s = .next s) ∧
  (∀ (s : State) (rest : List Turn), s.pending = none → s.schedule = .core :: rest →
    step s = .next { s with schedule := rest }) ∧
  (∀ (s : State) (op : HostOp) (rest : List Turn), s.schedule = .host op :: rest →
    step s = hostStep op { s with schedule := rest })

/-- Every completion ends its command: `pending` is empty and a STATUS read shows BUSY = 0 (R300). -/
def Obligations.CompletionClearsBusy : Prop :=
  ∀ (i : Instr) (s t : State), exec i s = .next t →
    t.pending = none ∧ (statusWord t).getLsbD 0 = false

/-! ### Errors -/

/-- An illegal word, by each of the faults R304 lists, completes with code 4 and no other effect; no command ever ends with
that code, in any state. `raced` is the model's own bookkeeping (log entry 28). -/
def Obligations.IllegalWordReportsCodeFour : Prop :=
  (∀ (s : State) (p : Pending), s.pending = some p →
    ((fieldsOf p.w).rsv ≠ 0 ∨ (fieldsOf p.w).opcode = 0 ∨ 11 ≤ (fieldsOf p.w).opcode.toNat ∨
      ((fieldsOf p.w).opcode ∈ [1#4, 2#4] ∧ (fieldsOf p.w).var = 0) ∨
      ((fieldsOf p.w).opcode ∉ [1#4, 2#4] ∧ (fieldsOf p.w).var ≠ 0)) →
    coreTurn s = .next { s with err := .illegalCommand, pending := none, raced := false }) ∧
  (∀ (i : Instr) (s t : State), exec i s = .next t → t.err ≠ .illegalCommand) ∧
  ErrCode.illegalCommand.code = 4

/-- A mode command without a key ends with code 3 whatever its operands, and nothing else ends with it, so that SET_IV, GET_IV
and CLEAR never do (R305). -/
def Obligations.ModeCommandNeedsKey : Prop :=
  (∀ (i : Instr) (s : State) (p : Pending), i ∈ [Instr.ecbEnc, .ecbDec, .cbcEnc, .cbcDec, .ctrXcrypt] →
    s.pending = some p → s.ctx.kv = none → EndsWithError i s .uninitializedContext) ∧
  (∀ (i : Instr) (s t : State), exec i s = .next t → t.err = .uninitializedContext →
    i ∈ [Instr.ecbEnc, .ecbDec, .cbcEnc, .cbcDec, .ctrXcrypt] ∧ s.ctx.kv = none) ∧
  ErrCode.uninitializedContext.code = 3

/-- An INIT command whose L is not its variant's key length ends with code 1, whatever its addresses, and nothing else ends
with it (R306). -/
def Obligations.KeyLengthMustMatchVariant : Prop :=
  (∀ (i : Instr) (len : Nat) (s : State) (p : Pending),
    (i, len) ∈ [(Instr.initKeyAes128, 16), (.initKeyAes192, 24), (.initKeyAes256, 32),
      (.initKeyIvAes128, 16), (.initKeyIvAes192, 24), (.initKeyIvAes256, 32)] →
    s.pending = some p → p.l.toNat ≠ len → EndsWithError i s .invalidKeyLength) ∧
  (∀ (i : Instr) (s t : State), exec i s = .next t → t.err = .invalidKeyLength →
    ∃ len p, (i, len) ∈ [(Instr.initKeyAes128, 16), (.initKeyAes192, 24), (.initKeyAes256, 32),
      (.initKeyIvAes128, 16), (.initKeyIvAes192, 24), (.initKeyIvAes256, 32)] ∧
      s.pending = some p ∧ p.l.toNat ≠ len) ∧
  ErrCode.invalidKeyLength.code = 1

/-- A CBC command with a key and L mod 16 ≠ 0 ends with code 2, wherever its buffer lies, and nothing else ends with it, so
that no ECB or CTR command ever does (R307). -/
def Obligations.CbcLengthMustBeMultipleOf16 : Prop :=
  (∀ (i : Instr) (s : State) (p : Pending), i ∈ [Instr.cbcEnc, .cbcDec] → s.pending = some p → s.ctx.kv ≠ none →
    p.l.toNat % 16 ≠ 0 → EndsWithError i s .invalidBufferLength) ∧
  (∀ (i : Instr) (s t : State), exec i s = .next t → t.err = .invalidBufferLength →
    i ∈ [Instr.cbcEnc, .cbcDec] ∧ ∃ p, s.pending = some p ∧ p.l.toNat % 16 ≠ 0) ∧
  ErrCode.invalidBufferLength.code = 2

/-- A command with a region that runs past 2^32 ends with code 5, once the earlier checks pass, and nothing else ends with it:
not a region that ends at 2^32, nor an empty one (R308, R78). -/
def Obligations.RegionPastEndReportsRange : Prop :=
  (∀ (i : Instr) (len : Nat) (s : State) (p : Pending),
    (i, len) ∈ [(Instr.initKeyAes128, 16), (.initKeyAes192, 24), (.initKeyAes256, 32),
      (.initKeyIvAes128, 16), (.initKeyIvAes192, 24), (.initKeyIvAes256, 32)] →
    s.pending = some p → p.l.toNat = len → p.a.toNat + len > 2 ^ 32 → EndsWithError i s .addressRange) ∧
  (∀ (i : Instr) (len : Nat) (s : State) (p : Pending),
    (i, len) ∈ [(Instr.initKeyIvAes128, 16), (.initKeyIvAes192, 24), (.initKeyIvAes256, 32)] →
    s.pending = some p → p.l.toNat = len → p.b.toNat + 16 > 2 ^ 32 → EndsWithError i s .addressRange) ∧
  (∀ (i : Instr) (s : State) (p : Pending), i ∈ [Instr.setIv, .getIv] → s.pending = some p →
    p.a.toNat + 16 > 2 ^ 32 → EndsWithError i s .addressRange) ∧
  (∀ (i : Instr) (s : State) (p : Pending), i ∈ [Instr.ecbEnc, .ecbDec] → s.pending = some p → s.ctx.kv ≠ none →
    p.a.toNat + 16 > 2 ^ 32 → EndsWithError i s .addressRange) ∧
  (∀ (i : Instr) (s : State) (p : Pending), i ∈ [Instr.cbcEnc, .cbcDec] → s.pending = some p → s.ctx.kv ≠ none →
    p.l.toNat % 16 = 0 → 0 < p.l.toNat → p.a.toNat + p.l.toNat > 2 ^ 32 → EndsWithError i s .addressRange) ∧
  (∀ (s : State) (p : Pending), s.pending = some p → s.ctx.kv ≠ none →
    0 < p.l.toNat → p.a.toNat + p.l.toNat > 2 ^ 32 → EndsWithError .ctrXcrypt s .addressRange) ∧
  (∀ (i : Instr) (s t : State), exec i s = .next t → t.err = .addressRange →
    ∃ p r, s.pending = some p ∧ r ∈ regions i p ∧ 0 < r.len ∧ r.base + r.len > 2 ^ 32) ∧
  ErrCode.addressRange.code = 5

/-- A checked error writes only ERR, BUSY and the latch: the context, memory and every register keep their values; and it
makes no data-memory access, so that the same happens over any memory and any platform (R303). `raced` is the model's
own bookkeeping (log entry 28). -/
def Obligations.CheckedErrorHasNoOtherEffect : Prop :=
  ∀ (i : Instr) (s t : State), exec i s = .next t → t.err ≠ .ok → t.err ≠ .busFault →
    t = { s with err := t.err, pending := none, raced := false } ∧
    ∀ (m : Memory) (pf : Platform),
      exec i { s with mem := m, platform := pf } = .next { t with mem := m, platform := pf }

/-- A bus fault: the command's body makes an access that the platform does not answer. The command ends with code 6 and
BUSY = 0 and the mark is set; bytes the command does not write, and for a command other than the INIT ones the key
variant and the schedule, are as before (R79, R309). -/
def Obligations.BusFaultReportsCodeSix : Prop :=
  ∀ (i : Instr) (s : State) (p : Pending), s.Runs p → check i p s.ctx.kv = .ok →
    (∃ r ∈ regions i p, ∃ k, k < r.len ∧ s.platform.memOK (r.base + k) = false) →
    (∀ r ∈ regions i p, ∀ k, k < r.len → s.platform.kindAt (r.base + k) ≠ .device) →
    ∃ t, exec i s = .next t ∧ t.err.code = 6 ∧ t.pending = none ∧
      (s.fault = none → t.fault = some .busFault) ∧ t.fault ≠ none ∧
      (∀ a, (∀ r ∈ regions i p, r.written = true → ¬ (r.base ≤ a ∧ a < r.base + r.len)) →
        t.mem.read a = s.mem.read a) ∧
      (initVariant i = none → t.ctx.kv = s.ctx.kv ∧ t.ctx.rk = s.ctx.rk)

/-- Where the machine stops, and under which name. A command whose region maps a device, and a host's own access to a device,
to an unanswered address outside the pending command's regions, or beside the window, stop where the spec gives no behaviour
(R77; log entries 7, 15 and 16); a meaning asked to run with nothing pending stops (R300; log entry 20), and no step does
that. The widths of the register bus and of an access on it are the model's (log entries 30 and 34). -/
def Obligations.StopsAreNamed : Prop :=
  (∀ (i : Instr) (s : State) (p : Pending), s.pending = some p → check i p s.ctx.kv = .ok →
    (∃ r ∈ regions i p, ∃ k, k < r.len ∧ s.platform.kindAt (r.base + k) = .device) →
    (∀ r ∈ regions i p, ∀ k, k < r.len → s.platform.memOK (r.base + k) = true) →
    exec i s = .refused .deviceAccess) ∧
  (∀ (s : State) (addr : Addr) (v : Byte), s.platform.kindAt addr.toNat = .device →
    hostStep (.memRead addr) s = .refused .deviceAccess ∧ hostStep (.memWrite addr v) s = .refused .deviceAccess) ∧
  (∀ (s : State) (addr : Addr) (v : Byte), s.platform.kindAt addr.toNat = .unanswered →
    inPendingRegion s addr.toNat = false →
    hostStep (.memRead addr) s = .fault .unansweredHostAccess ∧
    hostStep (.memWrite addr v) s = .fault .unansweredHostAccess) ∧
  (∀ (s : State) (addr : BusAddr) (size : AccessSize) (v : Reg32), 32 ≤ (addr - s.platform.aesBase).toNat →
    (addr - s.platform.aesBase).toNat + size.bytes ≤ 2 ^ 32 →
    hostStep (.regRead addr size) s = .refused .outsideWindow ∧
    hostStep (.regWrite addr size v) s = .refused .outsideWindow) ∧
  (∀ (i : Instr) (s : State), s.pending = none → exec i s = .fault .nothingPending) ∧
  (∀ s : State, step s ≠ .fault .nothingPending)

/-! ### Context commands -/

/-- INIT_KEY (R220, R175): the checks in order, and, when they pass and the key lies in plain memory, the schedule of the
key, zero past 16(Nr+1) bytes, a zero IV, the variant, SCR and all of memory unchanged. -/
def Obligations.InitKeyEstablishesSchedule : Prop :=
  ∀ (i : Instr) (v : Variant) (len nr : Nat) (s : State) (p : Pending),
    (i, v, len, nr) ∈ [(Instr.initKeyAes128, .aes128, 16, 10), (.initKeyAes192, .aes192, 24, 12),
      (.initKeyAes256, .aes256, 32, 14)] → s.Runs p →
    (p.l.toNat ≠ len → EndsWithError i s .invalidKeyLength) ∧
    (p.l.toNat = len → p.a.toNat + len > 2 ^ 32 → EndsWithError i s .addressRange) ∧
    (p.l.toNat = len → p.a.toNat + len ≤ 2 ^ 32 → PlainFrom s p.a.toNat len →
      ∃ t, Completes i s t ∧ t.ctx.kv = some v ∧ t.ctx.iv = .zero ∧ t.ctx.scr = s.ctx.scr ∧
        (∀ k, k < 16 * (nr + 1) →
          t.ctx.rk.byte k = (keyExpansion (s.mem.readBytes p.a.toNat len) v).getD k 0) ∧
        (∀ k, 16 * (nr + 1) ≤ k → t.ctx.rk.byte k = 0) ∧ KeepsMemory s t) ∧
    (p.l.toNat = len → p.a.toNat + len ≤ 2 ^ 32 → BusFaults i s p)

/-- INIT_KEY_IV (R221, R175): as INIT_KEY, with the IV read from B. -/
def Obligations.InitKeyIvEstablishesScheduleAndIv : Prop :=
  ∀ (i : Instr) (v : Variant) (len nr : Nat) (s : State) (p : Pending),
    (i, v, len, nr) ∈ [(Instr.initKeyIvAes128, .aes128, 16, 10), (.initKeyIvAes192, .aes192, 24, 12),
      (.initKeyIvAes256, .aes256, 32, 14)] → s.Runs p →
    (p.l.toNat ≠ len → EndsWithError i s .invalidKeyLength) ∧
    (p.l.toNat = len → p.a.toNat + len > 2 ^ 32 ∨ p.b.toNat + 16 > 2 ^ 32 → EndsWithError i s .addressRange) ∧
    (p.l.toNat = len → p.a.toNat + len ≤ 2 ^ 32 → p.b.toNat + 16 ≤ 2 ^ 32 →
      PlainFrom s p.a.toNat len → PlainFrom s p.b.toNat 16 →
      ∃ t, Completes i s t ∧ t.ctx.kv = some v ∧ t.ctx.scr = s.ctx.scr ∧
        (∀ k, k < 16 → t.ctx.iv.byte k = s.mem.read (p.b.toNat + k)) ∧
        (∀ k, k < 16 * (nr + 1) →
          t.ctx.rk.byte k = (keyExpansion (s.mem.readBytes p.a.toNat len) v).getD k 0) ∧
        (∀ k, 16 * (nr + 1) ≤ k → t.ctx.rk.byte k = 0) ∧ KeepsMemory s t) ∧
    (p.l.toNat = len → p.a.toNat + len ≤ 2 ^ 32 → p.b.toNat + 16 ≤ 2 ^ 32 → BusFaults i s p)

/-- SET_IV (R222): the IV is the 16 bytes at A, with or without a key; nothing else of the context changes. -/
def Obligations.SetIvReadsIv : Prop :=
  ∀ (s : State) (p : Pending), s.Runs p →
    (p.a.toNat + 16 > 2 ^ 32 → EndsWithError .setIv s .addressRange) ∧
    (p.a.toNat + 16 ≤ 2 ^ 32 → PlainFrom s p.a.toNat 16 →
      ∃ t, Completes .setIv s t ∧ t.ctx.kv = s.ctx.kv ∧ t.ctx.rk = s.ctx.rk ∧ t.ctx.scr = s.ctx.scr ∧
        (∀ k, k < 16 → t.ctx.iv.byte k = s.mem.read (p.a.toNat + k)) ∧ KeepsMemory s t) ∧
    (p.a.toNat + 16 ≤ 2 ^ 32 → BusFaults .setIv s p)

/-- GET_IV (R223): the 16 bytes at A are the IV, with or without a key; the context does not change. -/
def Obligations.GetIvWritesIv : Prop :=
  ∀ (s : State) (p : Pending), s.Runs p →
    (p.a.toNat + 16 > 2 ^ 32 → EndsWithError .getIv s .addressRange) ∧
    (p.a.toNat + 16 ≤ 2 ^ 32 → PlainFrom s p.a.toNat 16 →
      ∃ t, Completes .getIv s t ∧ t.ctx = s.ctx ∧
        (∀ k, k < 16 → t.mem.read (p.a.toNat + k) = s.ctx.iv.byte k) ∧ KeepsMemoryOutside s t p.a.toNat 16) ∧
    (p.a.toNat + 16 ≤ 2 ^ 32 → BusFaults .getIv s p)

/-- CLEAR (R224): the whole context is wiped, whatever the operands; it makes no memory access and raises no error, and
OPA, OPB and OPLEN are not cleared. -/
def Obligations.ClearWipesContext : Prop :=
  ∀ (s : State) (p : Pending), s.Runs p →
    ∃ t, Completes .clear s t ∧ t.ctx.kv = none ∧ (∀ k, t.ctx.rk.byte k = 0) ∧
      (∀ k, t.ctx.iv.byte k = 0) ∧ (∀ k, t.ctx.scr.byte k = 0) ∧
      t.opa = s.opa ∧ t.opb = s.opb ∧ t.oplen = s.oplen ∧ KeepsMemory s t

/-- The context after CLEAR is the context after reset (R224, which marks it as derived). -/
def Obligations.ClearLeavesResetContext : Prop :=
  ∀ (s t : State), exec .clear s = .next t → s.raced = false → t.ctx = State.reset.ctx

/-! ### ECB -/

/-- ECB_ENC (R240): the block at A becomes its Cipher; the context does not change; B and L are not used. -/
def Obligations.EcbEncEncryptsBlock : Prop :=
  ∀ (s : State) (p : Pending), s.Runs p →
    (s.ctx.kv = none → EndsWithError .ecbEnc s .uninitializedContext) ∧
    (s.ctx.kv ≠ none → p.a.toNat + 16 > 2 ^ 32 → EndsWithError .ecbEnc s .addressRange) ∧
    (∀ v, s.ctx.kv = some v → p.a.toNat + 16 ≤ 2 ^ 32 → PlainFrom s p.a.toNat 16 →
      ∃ t, Completes .ecbEnc s t ∧ t.ctx = s.ctx ∧
        t.mem.readBlock p.a.toNat = cipher (s.mem.readBlock p.a.toNat) s.ctx.rk v.nr ∧
        KeepsMemoryOutside s t p.a.toNat 16) ∧
    (s.ctx.kv ≠ none → p.a.toNat + 16 ≤ 2 ^ 32 → BusFaults .ecbEnc s p)

/-- ECB_DEC (R241): the block at A becomes its InvCipher; the context does not change. -/
def Obligations.EcbDecDecryptsBlock : Prop :=
  ∀ (s : State) (p : Pending), s.Runs p →
    (s.ctx.kv = none → EndsWithError .ecbDec s .uninitializedContext) ∧
    (s.ctx.kv ≠ none → p.a.toNat + 16 > 2 ^ 32 → EndsWithError .ecbDec s .addressRange) ∧
    (∀ v, s.ctx.kv = some v → p.a.toNat + 16 ≤ 2 ^ 32 → PlainFrom s p.a.toNat 16 →
      ∃ t, Completes .ecbDec s t ∧ t.ctx = s.ctx ∧
        t.mem.readBlock p.a.toNat = invCipher (s.mem.readBlock p.a.toNat) s.ctx.rk v.nr ∧
        KeepsMemoryOutside s t p.a.toNat 16) ∧
    (s.ctx.kv ≠ none → p.a.toNat + 16 ≤ 2 ^ 32 → BusFaults .ecbDec s p)

/-- ECB_ENC then ECB_DEC at the same address, under the same schedule, restores every byte of memory (R241, which marks it
as derived). -/
def Obligations.EcbDecUndoesEcbEnc : Prop :=
  ∀ (s : State) (p q : Pending), s.Runs p → q.a = p.a → s.ctx.kv ≠ none → p.a.toNat + 16 ≤ 2 ^ 32 →
    PlainFrom s p.a.toNat 16 →
    ∃ t u, exec .ecbEnc s = .next t ∧ exec .ecbDec { t with pending := some q } = .next u ∧ KeepsMemory s u

/-! ### CBC -/

/-- CBC_ENC (R260): each block becomes the Cipher of itself exclusive-ored with the chaining value, which is the IV for
the first block and the block just written for every other; the IV ends as the last ciphertext block; L = 0 changes
nothing. -/
def Obligations.CbcEncChainsBlocks : Prop :=
  ∀ (s : State) (p : Pending), s.Runs p →
    (s.ctx.kv = none → EndsWithError .cbcEnc s .uninitializedContext) ∧
    (s.ctx.kv ≠ none → p.l.toNat % 16 ≠ 0 → EndsWithError .cbcEnc s .invalidBufferLength) ∧
    (s.ctx.kv ≠ none → p.l.toNat % 16 = 0 → 0 < p.l.toNat → p.a.toNat + p.l.toNat > 2 ^ 32 →
      EndsWithError .cbcEnc s .addressRange) ∧
    (∀ v, s.ctx.kv = some v → p.l.toNat % 16 = 0 → (p.l.toNat = 0 ∨ p.a.toNat + p.l.toNat ≤ 2 ^ 32) →
      PlainFrom s p.a.toNat p.l.toNat →
      ∃ t, Completes .cbcEnc s t ∧
        (∀ j, j < p.l.toNat / 16 → t.mem.readBlock (p.a.toNat + 16 * j) =
          cipher ((s.mem.readBlock (p.a.toNat + 16 * j)).xor
            (if j = 0 then s.ctx.iv else t.mem.readBlock (p.a.toNat + 16 * (j - 1)))) s.ctx.rk v.nr) ∧
        t.ctx = { s.ctx with iv :=
          if p.l.toNat = 0 then s.ctx.iv else t.mem.readBlock (p.a.toNat + (p.l.toNat - 16)) } ∧
        KeepsMemoryOutside s t p.a.toNat p.l.toNat) ∧
    (s.ctx.kv ≠ none → p.l.toNat % 16 = 0 → p.a.toNat + p.l.toNat ≤ 2 ^ 32 → BusFaults .cbcEnc s p)

/-- CBC_DEC (R261): each block becomes its InvCipher exclusive-ored with the chaining value, which is the IV for the first
block and the previous ciphertext block for every other; IV and SCR end as the last ciphertext block, that is, the
input; L = 0 changes nothing. -/
def Obligations.CbcDecChainsBlocks : Prop :=
  ∀ (s : State) (p : Pending), s.Runs p →
    (s.ctx.kv = none → EndsWithError .cbcDec s .uninitializedContext) ∧
    (s.ctx.kv ≠ none → p.l.toNat % 16 ≠ 0 → EndsWithError .cbcDec s .invalidBufferLength) ∧
    (s.ctx.kv ≠ none → p.l.toNat % 16 = 0 → 0 < p.l.toNat → p.a.toNat + p.l.toNat > 2 ^ 32 →
      EndsWithError .cbcDec s .addressRange) ∧
    (∀ v, s.ctx.kv = some v → p.l.toNat % 16 = 0 → (p.l.toNat = 0 ∨ p.a.toNat + p.l.toNat ≤ 2 ^ 32) →
      PlainFrom s p.a.toNat p.l.toNat →
      ∃ t, Completes .cbcDec s t ∧
        (∀ j, j < p.l.toNat / 16 → t.mem.readBlock (p.a.toNat + 16 * j) =
          (invCipher (s.mem.readBlock (p.a.toNat + 16 * j)) s.ctx.rk v.nr).xor
            (if j = 0 then s.ctx.iv else s.mem.readBlock (p.a.toNat + 16 * (j - 1)))) ∧
        (p.l.toNat = 0 → t.ctx = s.ctx) ∧
        (0 < p.l.toNat → t.ctx = { s.ctx with
          iv := s.mem.readBlock (p.a.toNat + (p.l.toNat - 16))
          scr := s.mem.readBlock (p.a.toNat + (p.l.toNat - 16)) }) ∧
        KeepsMemoryOutside s t p.a.toNat p.l.toNat) ∧
    (s.ctx.kv ≠ none → p.l.toNat % 16 = 0 → p.a.toNat + p.l.toNat ≤ 2 ^ 32 → BusFaults .cbcDec s p)

/-- IV continuation: a buffer processed by one CBC command ends as when it is processed by two, one after the other, with
no SET_IV between them (R262, which marks it as derived). -/
def Obligations.CbcContinuesAcrossCommands : Prop :=
  ∀ (i : Instr) (s : State) (w b : Reg32) (a l₁ l₂ : Reg32), i ∈ [Instr.cbcEnc, .cbcDec] →
    s.raced = false → s.ctx.kv ≠ none → l₁.toNat % 16 = 0 → l₂.toNat % 16 = 0 →
    a.toNat + l₁.toNat + l₂.toNat ≤ 2 ^ 32 → l₁.toNat + l₂.toNat < 2 ^ 32 →
    PlainFrom s a.toNat (l₁.toNat + l₂.toNat) →
    ∃ t u, exec i { s with pending := some ⟨w, a, b, l₁⟩ } = .next t ∧
      exec i { t with pending := some ⟨w, a + l₁, b, l₂⟩ } = .next u ∧
      exec i { s with pending := some ⟨w, a, b, l₁ + l₂⟩ } = .next u

/-- CBC_ENC, then the IV set back, then CBC_DEC over the same region restores every byte of memory (R262, which marks it
as derived). -/
def Obligations.CbcDecUndoesCbcEnc : Prop :=
  ∀ (s : State) (p q : Pending), s.Runs p → q.a = p.a → q.l = p.l → s.ctx.kv ≠ none → p.l.toNat % 16 = 0 →
    (p.l.toNat = 0 ∨ p.a.toNat + p.l.toNat ≤ 2 ^ 32) → PlainFrom s p.a.toNat p.l.toNat →
    ∃ t u, exec .cbcEnc s = .next t ∧
      exec .cbcDec { t with pending := some q, ctx := { t.ctx with iv := s.ctx.iv } } = .next u ∧ KeepsMemory s u

/-! ### CTR -/

/-- CTR_XCRYPT (R281): byte k of the buffer is exclusive-ored with byte k mod 16 of the keystream block of chunk k / 16,
the Cipher of the counter incremented k / 16 times; the counter ends incremented ceil(L/16) times; SCR holds the last
keystream block; L = 0 changes nothing. -/
def Obligations.CtrXorsKeystream : Prop :=
  ∀ (s : State) (p : Pending), s.Runs p →
    (s.ctx.kv = none → EndsWithError .ctrXcrypt s .uninitializedContext) ∧
    (s.ctx.kv ≠ none → 0 < p.l.toNat → p.a.toNat + p.l.toNat > 2 ^ 32 →
      EndsWithError .ctrXcrypt s .addressRange) ∧
    (∀ v, s.ctx.kv = some v → (p.l.toNat = 0 ∨ p.a.toNat + p.l.toNat ≤ 2 ^ 32) →
      PlainFrom s p.a.toNat p.l.toNat →
      ∃ t, Completes .ctrXcrypt s t ∧
        (∀ k, k < p.l.toNat → t.mem.read (p.a.toNat + k) =
          s.mem.read (p.a.toNat + k) ^^^ (cipher (inc128^[k / 16] s.ctx.iv) s.ctx.rk v.nr).byte (k % 16)) ∧
        t.ctx = { s.ctx with
          iv := inc128^[(p.l.toNat + 15) / 16] s.ctx.iv
          scr := if p.l.toNat = 0 then s.ctx.scr
            else cipher (inc128^[(p.l.toNat - 1) / 16] s.ctx.iv) s.ctx.rk v.nr } ∧
        KeepsMemoryOutside s t p.a.toNat p.l.toNat) ∧
    (s.ctx.kv ≠ none → p.a.toNat + p.l.toNat ≤ 2 ^ 32 → BusFaults .ctrXcrypt s p)

/-- Inc128 is the increment of the big-endian 128-bit integer, modulo 2^128 (R280). -/
def Obligations.Inc128IncrementsBigEndian : Prop :=
  (∀ c : Block, (inc128 c).toNatBE = (c.toNatBE + 1) % 2 ^ 128) ∧
  (∀ b c : Block, b.toNatBE = c.toNatBE → b = c)

/-- After CTR_XCRYPT the counter is the starting counter plus ceil(L/16), modulo 2^128 (R281's corner case). -/
def Obligations.CtrAdvancesCounterByChunks : Prop :=
  ∀ (s t : State) (p : Pending), s.Runs p → exec .ctrXcrypt s = .next t → t.err = .ok →
    t.ctx.iv.toNatBE = (s.ctx.iv.toNatBE + (p.l.toNat + 15) / 16) % 2 ^ 128

/-- CTR_XCRYPT twice over a region, with the counter set back between them, restores every byte of memory, for every L
(R282, which marks it as derived). -/
def Obligations.CtrUndoesItself : Prop :=
  ∀ (s : State) (p q : Pending), s.Runs p → q.a = p.a → q.l = p.l → s.ctx.kv ≠ none →
    (p.l.toNat = 0 ∨ p.a.toNat + p.l.toNat ≤ 2 ^ 32) → PlainFrom s p.a.toNat p.l.toNat →
    ∃ t u, exec .ctrXcrypt s = .next t ∧
      exec .ctrXcrypt { t with pending := some q, ctx := { t.ctx with iv := s.ctx.iv } } = .next u ∧ KeepsMemory s u

/-! ### The block transform, the tables and the key schedule -/

/-- The four inverse laws of the round functions (R200, derived there; the third from general knowledge). -/
def Obligations.RoundFunctionsHaveInverses : Prop :=
  ∀ s k : Block, invSubBytes (subBytes s) = s ∧ invShiftRows (shiftRows s) = s ∧
    invMixColumns (mixColumns s) = s ∧ addRoundKey (addRoundKey s k) k = s

/-- InvCipher inverts Cipher under every schedule and every number of rounds (R200, R199's corner case). -/
def Obligations.InvCipherInvertsCipher : Prop :=
  ∀ (b : Block) (rk : Schedule) (nr : Nat), invCipher (cipher b rk nr) rk nr = b

/-- Cipher and InvCipher depend on the schedule only through its first 16(Nr+1) bytes (R201). -/
def Obligations.CipherReadsOnlyItsRoundKeys : Prop :=
  ∀ (b : Block) (rk rk' : Schedule) (nr : Nat), (∀ k, k < 16 * (nr + 1) → rk.byte k = rk'.byte k) →
    cipher b rk nr = cipher b rk' nr ∧ invCipher b rk nr = invCipher b rk' nr

/-- SBOX is a permutation with inverse INV_SBOX, no fixed point and no opposite fixed point (R154, derived there). -/
def Obligations.SboxTablesAreInverse : Prop :=
  (∀ x, invSbox (sbox x) = x ∧ sbox (invSbox x) = x ∧ sbox x ≠ x ∧ sbox x ≠ x ^^^ 0xff) ∧
  Function.Bijective sbox

/-- The table of SBOX is the field inverse followed by the affine map, with 0 for the inverse of 0 (R152). -/
def Obligations.SboxIsInverseThenAffine : Prop :=
  (∀ x, x ≠ 0 → ∃ y, gmul x y = 0x01 ∧ sbox x = sboxAffine y) ∧ sbox 0 = sboxAffine 0

/-- The products by the MixColumns constants, built from xtime, are the field products (R134, derived there). -/
def Obligations.MixColumnsConstantsAreProducts : Prop :=
  ∀ x, gmul x 0x01 = x ∧ gmul x 0x02 = mul02 x ∧ gmul x 0x03 = mul03 x ∧ gmul x 0x09 = mul09 x ∧
    gmul x 0x0B = mul0B x ∧ gmul x 0x0D = mul0D x ∧ gmul x 0x0E = mul0E x

/-- The field product distributes over addition on both sides (R133). -/
def Obligations.GmulDistributesOverXor : Prop :=
  ∀ x y z, gmul (gadd x y) z = gadd (gmul x z) (gmul y z) ∧ gmul x (gadd y z) = gadd (gmul x y) (gmul x z)

/-- KeyExpansion (R172): the first Nk words are the key's; every later word is the word Nk back exclusive-ored with the
previous word, rotated, substituted and with the round constant added at multiples of Nk, and only substituted at the
midpoint of each group for Nk = 8; and the schedule's bytes are those of its 4(Nr+1) words. -/
def Obligations.KeyExpansionFollowsRecurrence : Prop :=
  ∀ (v : Variant) (nk nr : Nat) (key : List Byte),
    (v, nk, nr) ∈ [(Variant.aes128, 4, 10), (.aes192, 6, 12), (.aes256, 8, 14)] →
    let w := fun i => (scheduleWords key v).getD i .zero
    (scheduleWords key v).length = 4 * (nr + 1) ∧
    (∀ i, i < nk → w i = ⟨key.getD (4 * i) 0, key.getD (4 * i + 1) 0, key.getD (4 * i + 2) 0, key.getD (4 * i + 3) 0⟩) ∧
    (∀ i, nk ≤ i → i < 4 * (nr + 1) → w i = (w (i - nk)).xor
      (if i % nk = 0 then (subWord (rotWord (w (i - 1)))).xor ⟨rcon (i / nk), 0, 0, 0⟩
       else if nk = 8 ∧ i % nk = 4 then subWord (w (i - 1))
       else w (i - 1))) ∧
    (∀ i k, i < 4 * (nr + 1) → k < 4 → (keyExpansion key v).getD (4 * i + k) 0 = (w i).toList.getD k 0)

/-- Round key r of a stored schedule is the words w[4r] to w[4r+3], and round key 0 is the key's first 16 bytes (R175). -/
def Obligations.RoundKeysAreScheduleWords : Prop :=
  ∀ (v : Variant) (key : List Byte),
    (∀ r, r ≤ v.nr → (Schedule.ofBytes (keyExpansion key v)).roundKey r =
      ⟨(scheduleWords key v).getD (4 * r) .zero, (scheduleWords key v).getD (4 * r + 1) .zero,
       (scheduleWords key v).getD (4 * r + 2) .zero, (scheduleWords key v).getD (4 * r + 3) .zero⟩) ∧
    (∀ k, k < 16 → ((Schedule.ofBytes (keyExpansion key v)).roundKey 0).byte k = key.getD k 0)

/-! ### Registers -/

/-- The STATUS word, field by field, and as a number (R41): the reserved bits read 0, and a host write leaves it alone. -/
def Obligations.StatusWordLayout : Prop :=
  (∀ s : State, (statusWord s).extractLsb' 0 1 = (if s.pending = none then 0 else 1) ∧
    (statusWord s).extractLsb' 1 1 = (if s.ovr then 1 else 0) ∧
    (statusWord s).extractLsb' 2 2 = 0 ∧
    (statusWord s).extractLsb' 4 4 = s.err.code ∧
    (statusWord s).extractLsb' 8 2 = kvCode s.ctx.kv ∧
    (statusWord s).extractLsb' 10 22 = 0 ∧
    (statusWord s).toNat = (if s.pending = none then 0 else 1) + (if s.ovr then 2 else 0) +
      16 * s.err.code.toNat + 256 * (kvCode s.ctx.kv).toNat) ∧
  (∀ (s : State) (v : Reg32), regStore .status v s = s) ∧
  statusWord State.reset = 0

/-- A CMD write (R40): with BUSY = 0 the operands are latched, BUSY becomes 1 and OVR and ERR 0; with BUSY = 1 the write is
dropped and OVR becomes 1, the latch untouched; a read of CMD returns 0 and has no effect. `raced` and `hostRead` are
the model's own (log entries 17 and 28). -/
def Obligations.CmdWriteLatchesOrDrops : Prop :=
  ∀ (s : State) (w : Reg32),
    (s.pending = none → hostStep (.regWrite s.platform.aesBase .word w) s =
      .next { s with pending := some ⟨w, s.opa, s.opb, s.oplen⟩, ovr := false, err := .ok, raced := false }) ∧
    (s.pending ≠ none → hostStep (.regWrite s.platform.aesBase .word w) s = .next { s with ovr := true }) ∧
    hostStep (.regRead s.platform.aesBase .word) s = .next { s with hostRead := some 0 }

/-- The register window (R47, R48): an aligned 32-bit read at each of the eight offsets returns what R47 says and has no side
effect; a write of OPA, OPB or OPLEN changes only that register, whether or not a command is pending, and a write of STATUS
or a reserved offset changes nothing. `hostRead` is the model's place for the value returned (log entry 17); a write of CMD
has its own statement. -/
def Obligations.RegisterWindowAccesses : Prop :=
  ∀ (s : State) (v : Reg32),
    let readAt := fun off : BusAddr => hostStep (.regRead (s.platform.aesBase + off) .word) s
    let writeAt := fun off : BusAddr => hostStep (.regWrite (s.platform.aesBase + off) .word v) s
    (readAt 0x00 = .next { s with hostRead := some 0 } ∧
      readAt 0x04 = .next { s with hostRead := some s.opa } ∧
      readAt 0x08 = .next { s with hostRead := some s.opb } ∧
      readAt 0x0C = .next { s with hostRead := some s.oplen } ∧
      readAt 0x10 = .next { s with hostRead := some (statusWord s) } ∧
      readAt 0x14 = .next { s with hostRead := some 0 } ∧
      readAt 0x18 = .next { s with hostRead := some 0 } ∧
      readAt 0x1C = .next { s with hostRead := some 0 }) ∧
    (writeAt 0x04 = .next { s with opa := v } ∧
      writeAt 0x08 = .next { s with opb := v } ∧
      writeAt 0x0C = .next { s with oplen := v } ∧
      writeAt 0x10 = .next s ∧ writeAt 0x14 = .next s ∧ writeAt 0x18 = .next s ∧ writeAt 0x1C = .next s)

/-- An access that touches the window and is not an aligned 32-bit one is refused and sets the mark; the registers, the latch,
the context and memory do not change (R76; what a refused read returns is a free value, log entry 13). It starts in the
window and is narrower or wider than 32 bits or misaligned, or it starts before the window and reaches into it: that the
second kind is refused too is the model's choice (log entry 13), on a bus whose width is the model's (log entry 30), and so
are the accesses wider than 32 bits (log entry 34). -/
def Obligations.RefusedRegisterAccessSetsMark : Prop :=
  ∀ (s : State) (addr : BusAddr) (size : AccessSize) (v : Reg32),
    ((addr - s.platform.aesBase).toNat < 32 ∧ (size ≠ .word ∨ (addr - s.platform.aesBase).toNat % 4 ≠ 0) ∨
      2 ^ 32 < (addr - s.platform.aesBase).toNat + size.bytes) →
    (∃ t, hostStep (.regWrite addr size v) s = .next t ∧ t.fault ≠ none ∧
      (s.fault = none → t.fault = some .registerAccessRefused) ∧ t = { s with fault := t.fault }) ∧
    (∃ t, hostStep (.regRead addr size) s = .next t ∧ t.fault ≠ none ∧
      (s.fault = none → t.fault = some .registerAccessRefused) ∧
      t = { s with fault := t.fault, hostRead := t.hostRead, freeCtr := t.freeCtr })

/-- A command uses the operands latched at acceptance: OPA, OPB and OPLEN may be rewritten while it is pending, and its
completion is the same but for them (R344, which marks it as derived). Races and bus faults are left out: their free values
may depend on anything (log entry 9). -/
def Obligations.OperandsAreLatched : Prop :=
  ∀ (i : Instr) (s t : State) (x y z : Reg32), s.raced = false → exec i s = .next t → t.err ≠ .busFault →
    exec i { s with opa := x, opb := y, oplen := z } = .next { t with opa := x, opb := y, oplen := z }

/-! ### Reset -/

/-- The machine right after reset has the values of R340's table; data memory and the platform are not the core's. -/
def Obligations.ResetValuesMatchTable : Prop :=
  State.reset.ctx.kv = none ∧ (∀ k, State.reset.ctx.rk.byte k = 0) ∧ (∀ k, State.reset.ctx.iv.byte k = 0) ∧
  (∀ k, State.reset.ctx.scr.byte k = 0) ∧ State.reset.opa = 0 ∧ State.reset.opb = 0 ∧ State.reset.oplen = 0 ∧
  statusWord State.reset = 0 ∧ State.reset.pending = none ∧ State.reset.fault = none

/-- The reset input while no command is pending: every element of the core's state is at its reset value, and data memory
does not change (R340). The mark and the other agents' fields stay (log entry 14). -/
def Obligations.ResetInputRestoresCore : Prop :=
  ∀ s : State, s.pending = none → ∃ t, hostStep .reset s = .next t ∧
    t.ctx = State.reset.ctx ∧ t.opa = 0 ∧ t.opb = 0 ∧ t.oplen = 0 ∧ statusWord t = 0 ∧ t.pending = none ∧
    KeepsMemory s t ∧ t.fault = s.fault

/-- The reset input while a command is pending: the command is abandoned, the core's state is at its reset values, and the
mark is set; only bytes of the abandoned command's regions may differ, and only of its write regions if no host raced
it (R341, R345, R72). That a race frees the other regions too is the model's choice (log entry 12), and that a command of
which a check fails has no region is DEDUCED (log entry 21); `raced` is log entry 28. -/
def Obligations.ResetDuringBusySetsMark : Prop :=
  ∀ (s : State) (p : Pending), s.pending = some p → ∃ t, hostStep .reset s = .next t ∧
    t.ctx = State.reset.ctx ∧ t.opa = 0 ∧ t.opb = 0 ∧ t.oplen = 0 ∧ statusWord t = 0 ∧ t.pending = none ∧
    t.fault ≠ none ∧ (s.fault = none → t.fault = some .resetDuringBusy) ∧
    (∀ a, inPendingRegion s a = false → t.mem.read a = s.mem.read a) ∧
    (s.raced = false → ∀ i, decode p.w = .ok i →
      ∀ a, (∀ r ∈ regions i p, r.written = true → ¬ (r.base ≤ a ∧ a < r.base + r.len)) →
        t.mem.read a = s.mem.read a)

/-! ### The host and the data memory -/

/-- The region hazard (R345): a host access to a byte of a region of the pending command sets the mark HostRace, whether or not
the platform answers there; an access anywhere else, or with nothing pending, reads or writes that byte of plain memory
freely. That a command of which a check fails has no region is DEDUCED (log entry 21); a device in a region is outside the
spec (R77; log entry 7). -/
def Obligations.HostAccessToPendingRegionIsRace : Prop :=
  ∀ (s : State) (addr : Addr) (v : Byte), s.platform.kindAt addr.toNat ≠ .device →
    (∀ (p : Pending) (i : Instr) (r : Region), s.pending = some p → decode p.w = .ok i → check i p s.ctx.kv = .ok →
      r ∈ regions i p → r.base ≤ addr.toNat → addr.toNat < r.base + r.len →
      (∃ t, hostStep (.memRead addr) s = .next t ∧ t.fault ≠ none ∧ (s.fault = none → t.fault = some .hostRace)) ∧
      (∃ t, hostStep (.memWrite addr v) s = .next t ∧ t.fault ≠ none ∧ (s.fault = none → t.fault = some .hostRace))) ∧
    (inPendingRegion s addr.toNat = false → s.platform.kindAt addr.toNat = .plain →
      hostStep (.memRead addr) s = .next { s with hostRead := some ((s.mem.read addr.toNat).zeroExtend 32) } ∧
      hostStep (.memWrite addr v) s = .next { s with mem := s.mem.write addr.toNat v }) ∧
    (s.pending = none → inPendingRegion s addr.toNat = false)

/-- Every choice of which addresses the platform answers is one of the model's platforms, so that the OPEN parameter MemOK
is left open (R79, 93_implementation_defined.md U6; the representation is the model's, log entry 5). -/
def Obligations.EveryMemOkIsAPlatform : Prop :=
  ∀ ok : Addr → Bool, ∃ pf : Platform, ∀ a : Addr, pf.memOK a.toNat = ok a

/-- WAIT (R108): with BUSY = 0 it is one read of STATUS; with BUSY = 1 it is a read of STATUS and is then taken again,
after a turn of the core (the schedule is the model's, log entry 22). -/
def Obligations.WaitPollsUntilIdle : Prop :=
  (∀ s : State, s.pending = none →
    hostStep .wait s = .next { s with hostRead := some (statusWord s) }) ∧
  (∀ s : State, s.pending ≠ none →
    hostStep .wait s = .next { s with hostRead := some (statusWord s),
                                      schedule := .core :: .host .wait :: s.schedule })

/-! ### Frames and whole-machine rules -/

/-- Whatever a command does, it leaves OPA, OPB, OPLEN and OVR alone (R43, R48; and the model's own platform, schedule
and host read). -/
def Obligations.CommandsKeepOperandRegisters : Prop :=
  ∀ (i : Instr) (s t : State), exec i s = .next t →
    t.opa = s.opa ∧ t.opb = s.opb ∧ t.oplen = s.oplen ∧ t.ovr = s.ovr ∧ t.platform = s.platform ∧
    t.schedule = s.schedule ∧ t.hostRead = s.hostRead

/-- The frame of the commands that store nothing, INIT_KEY, INIT_KEY_IV, SET_IV and CLEAR: every byte of memory is
unchanged, on every path that ends in a next state, and the mark is unchanged unless a bus fault set it. A race is ruled
out by hypothesis (R345). -/
def Obligations.NonStoringCommandsKeepMemory : Prop :=
  ∀ (i : Instr) (s t : State), i ∈ [Instr.initKeyAes128, .initKeyAes192, .initKeyAes256, .initKeyIvAes128,
      .initKeyIvAes192, .initKeyIvAes256, .setIv, .clear] →
    s.raced = false → exec i s = .next t →
    KeepsMemory s t ∧ (t.err ≠ .busFault → t.fault = s.fault ∧ t.freeCtr = s.freeCtr)

/-- The frame of the commands that store, GET_IV and the ECB, CBC and CTR commands: every byte outside the 16 or the L
bytes from A on is unchanged, on every path; KV and RK are unchanged; and but for a bus fault SCR is unchanged by GET_IV,
ECB and CBC_ENC, the IV by GET_IV and ECB, and the mark by all (R72, R223, R240, R241, R260, R261, R281). -/
def Obligations.StoringCommandsKeepOtherBytes : Prop :=
  ∀ (i : Instr) (s t : State) (p : Pending), s.Runs p → exec i s = .next t →
    (i ∈ [Instr.getIv, .ecbEnc, .ecbDec] → KeepsMemoryOutside s t p.a.toNat 16) ∧
    (i ∈ [Instr.cbcEnc, .cbcDec, .ctrXcrypt] → KeepsMemoryOutside s t p.a.toNat p.l.toNat) ∧
    (i ∈ [Instr.getIv, .ecbEnc, .ecbDec, .cbcEnc, .cbcDec, .ctrXcrypt] →
      t.ctx.kv = s.ctx.kv ∧ t.ctx.rk = s.ctx.rk ∧
      (t.err ≠ .busFault → t.fault = s.fault ∧ t.freeCtr = s.freeCtr)) ∧
    (i ∈ [Instr.getIv, .ecbEnc, .ecbDec, .cbcEnc] → t.err ≠ .busFault → t.ctx.scr = s.ctx.scr) ∧
    (i ∈ [Instr.getIv, .ecbEnc, .ecbDec] → t.err ≠ .busFault → t.ctx.iv = s.ctx.iv)

/-- Who may change the key variant: in any step of the machine it changes only when it is the core's turn and the core
completes an INIT_KEY, an INIT_KEY_IV or a CLEAR, or when the reset input comes (R31). The same holds of the round keys
(R32). Whose turn it is, is the model's schedule (log entries 1 and 2). -/
def Obligations.OnlyInitClearResetChangeKey : Prop :=
  ∀ s t : State, step s = .next t → (t.ctx.kv ≠ s.ctx.kv ∨ t.ctx.rk ≠ s.ctx.rk) →
    ((s.schedule = [] ∨ ∃ rest, s.schedule = .core :: rest) ∧ ∃ p i, s.pending = some p ∧ decode p.w = .ok i ∧
      i ∈ [Instr.initKeyAes128, .initKeyAes192, .initKeyAes256, .initKeyIvAes128, .initKeyIvAes192, .initKeyIvAes256,
        .clear]) ∨
    (∃ rest, s.schedule = .host .reset :: rest)

/-- Who may write SCR: while the mark is empty, only CBC_DEC, CTR_XCRYPT and CLEAR, on the core's turn, and reset (R34). Whose
turn it is, is the model's schedule (log entries 1 and 2). -/
def Obligations.OnlyFourEventsWriteScratch : Prop :=
  ∀ s t : State, step s = .next t → t.fault = none → t.ctx.scr ≠ s.ctx.scr → s.raced = false →
    ((s.schedule = [] ∨ ∃ rest, s.schedule = .core :: rest) ∧
      ∃ p i, s.pending = some p ∧ decode p.w = .ok i ∧ i ∈ [Instr.cbcDec, .ctrXcrypt, .clear]) ∨
    (∃ rest, s.schedule = .host .reset :: rest)

/-- GET_IV never exposes RK or SCR, nor do SET_IV and CLEAR: two states that differ in these alone, and complete one of
these commands, end with the same memory, status and IV (R223, R32). Races and bus faults are left out: their free values
may depend on anything (log entry 9). -/
def Obligations.ContextCommandsHideSecrets : Prop :=
  ∀ (i : Instr) (s t u : State) (rk : Schedule) (scr : Block), i ∈ [Instr.getIv, .setIv, .clear] →
    s.raced = false → exec i s = .next t → t.err ≠ .busFault →
    exec i { s with ctx := { s.ctx with rk := rk, scr := scr } } = .next u →
    u.mem = t.mem ∧ u.ctx.iv = t.ctx.iv ∧ statusWord u = statusWord t

/-- The fault mark, once set, is never cleared by a later step, and a marked state is never final (R51). -/
def Obligations.FaultMarkIsNeverCleared : Prop :=
  ∀ s t : State, s.fault ≠ none → step s = .next t → t.fault ≠ none ∧ ¬ t.Final

/-- Every step keeps the invariant: memory in its canonical form, a race remembered only of a pending command with the
mark set, and, while the mark is empty, the bytes of RK past the schedule zero, all of RK while KV = NONE (R32). -/
def Obligations.StepKeepsSoundState : Prop :=
  ∀ s t : State, s.Inv → step s = .next t → t.Inv

/-- The state after reset meets the invariant. -/
def Obligations.ResetStateIsSound : Prop := State.reset.Inv
end

