-- ==== Sys2Proof/Laws/Bytes.lean ====
section
/-! SUPPORT. Bytes of words, blocks and schedules: reading a byte back from what was built of bytes. -/

namespace Sys2Proof

@[simp] theorem Word.toList_length (w : Word) : w.toList.length = 4 := rfl

@[simp] theorem Block.toList_length (b : Block) : b.toList.length = 16 := rfl

theorem Word.toList_ofFn (f : Nat → Byte) : (Word.ofFn f).toList = (List.range 4).map f := rfl

theorem Block.toList_ofFn (f : Nat → Byte) : (Block.ofFn f).toList = (List.range 16).map f := rfl

/-- Byte k of a block built from a function is the function's value at k. -/
@[simp] theorem Block.byte_ofFn (f : Nat → Byte) {k : Nat} (h : k < 16) : (Block.ofFn f).byte k = f k := by
  rw [Block.byte, Block.toList_ofFn, List.getD_eq_getElem _ _ (by simpa using h)]
  simp

/-- Past its 16 bytes a block reads as zero. -/
theorem Block.byte_of_le (b : Block) {k : Nat} (h : 16 ≤ k) : b.byte k = 0 := by
  rw [Block.byte, List.getD_eq_default]
  simpa using h

theorem Block.ofFn_byte (b : Block) : Block.ofFn b.byte = b := rfl

theorem Block.ofFn_congr {f g : Nat → Byte} (h : ∀ k, k < 16 → f k = g k) : Block.ofFn f = Block.ofFn g := by
  simp [Block.ofFn, Word.ofFn, h]

/-- Two blocks with equal bytes are equal. -/
theorem Block.ext_byte {b c : Block} (h : ∀ k, k < 16 → b.byte k = c.byte k) : b = c := by
  rw [← Block.ofFn_byte b, ← Block.ofFn_byte c]
  exact Block.ofFn_congr h

@[simp] theorem Block.ofList_toList (b : Block) : Block.ofList b.toList = b := Block.ofFn_byte b

theorem Block.byte_ofList (l : List Byte) {k : Nat} (h : k < 16) : (Block.ofList l).byte k = l.getD k 0 :=
  Block.byte_ofFn _ h

@[simp] theorem Block.byte_map (f : Byte → Byte) (b : Block) {k : Nat} (h : k < 16) :
    (b.map f).byte k = f (b.byte k) := Block.byte_ofFn _ h

/-- Exclusive-or of blocks is exclusive-or of their bytes (R8). -/
@[simp] theorem Block.byte_xor (b c : Block) (k : Nat) : (b.xor c).byte k = b.byte k ^^^ c.byte k := by
  rcases Nat.lt_or_ge k 16 with h | h
  · interval_cases k <;> rfl
  · simp [Block.byte_of_le _ h]

@[simp] theorem Block.byte_zero (k : Nat) : Block.zero.byte k = 0 := by
  rcases Nat.lt_or_ge k 16 with h | h
  · interval_cases k <;> rfl
  · exact Block.byte_of_le _ h

@[simp] theorem Word.xor_cancel (x y : Word) : (x.xor y).xor y = x := by
  simp [Word.xor]

@[simp] theorem Block.xor_cancel (x y : Block) : (x.xor y).xor y = x := by
  simp [Block.xor]

theorem Word.xor_comm (x y : Word) : x.xor y = y.xor x := by
  simp [Word.xor, BitVec.xor_comm]

theorem Block.xor_comm (x y : Block) : x.xor y = y.xor x := by
  simp [Block.xor, Word.xor_comm]

/-- A schedule built from bytes has those bytes, then zeros (R175). -/
theorem Schedule.bytes_ofBytes {l : List Byte} (h : l.length ≤ 240) :
    (Schedule.ofBytes l).bytes = l ++ List.replicate (240 - l.length) 0 := by
  show (l ++ List.replicate 240 0).take 240 = _
  rw [List.take_append, List.take_of_length_le h, List.take_replicate]
  congr 2
  omega

theorem Schedule.byte_ofBytes {l : List Byte} (h : l.length ≤ 240) (k : Nat) :
    (Schedule.ofBytes l).byte k = l.getD k 0 := by
  rw [Schedule.byte, Schedule.bytes_ofBytes h]
  rcases Nat.lt_or_ge k l.length with hk | hk
  · rw [List.getD_append _ _ _ _ hk]
  · rw [List.getD_append_right _ _ _ _ hk, List.getD_eq_default _ _ hk]
    simp [List.getD_eq_getElem?_getD, List.getElem?_replicate]
    split <;> rfl

theorem Schedule.ext_bytes {x y : Schedule} (h : x.bytes = y.bytes) : x = y := by
  cases x; cases y; simpa using h

end Sys2Proof
end

