-- ==== Sys2Proof/Laws/Memory.lean ====
section
/-! SUPPORT. Data memory: what reads return after writes, that every operation keeps the canonical form, and that memories
in that form with equal bytes are equal. -/

namespace Sys2Proof.Machine

/-! ### Reads after writes -/

@[simp] theorem Memory.read_nil (a : Nat) : Memory.read [] a = unlistedByte := rfl

theorem Memory.read_cons (k : Nat) (v : Byte) (m : Memory) (a : Nat) :
    Memory.read ((k, v) :: m) a = if k = a then v else Memory.read m a := rfl

theorem Memory.read_of_not_listed {m : Memory} {a : Nat} (h : ∀ c ∈ m, c.1 ≠ a) : Memory.read m a = unlistedByte := by
  induction m with
  | nil => rfl
  | cons c m ih =>
    rw [Memory.read_cons, if_neg (h c (by simp))]
    exact ih fun d hd => h d (by simp [hd])

theorem Memory.read_erase (m : Memory) (a c : Nat) :
    (Memory.erase m a).read c = if c = a then unlistedByte else m.read c := by
  induction m with
  | nil => simp [Memory.erase]
  | cons d m ih =>
    obtain ⟨k, v⟩ := d
    by_cases hk : k = a
    · subst hk
      have : Memory.erase ((k, v) :: m) k = Memory.erase m k := by simp [Memory.erase]
      rw [this, ih, Memory.read_cons]
      by_cases hc : c = k
      · simp [hc]
      · simp [hc, Ne.symm hc]
    · have : Memory.erase ((k, v) :: m) a = (k, v) :: Memory.erase m a := by simp [Memory.erase, hk]
      rw [this, Memory.read_cons, Memory.read_cons, ih]
      by_cases hc : k = c
      · subst hc; simp [hk]
      · simp [hc]

theorem Memory.not_listed_erase (m : Memory) (a : Nat) : ∀ c ∈ Memory.erase m a, c.1 ≠ a := by
  intro c hc
  simpa using (List.mem_filter.mp hc).2

theorem Memory.read_insert {m : Memory} {a : Nat} (b : Byte) (h : ∀ c ∈ m, c.1 ≠ a) (c : Nat) :
    (Memory.insert m a b).read c = if c = a then b else m.read c := by
  induction m with
  | nil =>
    show (if a = c then b else unlistedByte) = _
    simp [eq_comm]
  | cons d m ih =>
    obtain ⟨k, v⟩ := d
    have hk : k ≠ a := h (k, v) (by simp)
    rw [Memory.insert]
    split
    · rw [Memory.read_cons]
      simp [eq_comm]
    · rw [Memory.read_cons, ih (fun d hd => h d (by simp [hd])), Memory.read_cons]
      by_cases hc : k = c
      · subst hc; simp [hk]
      · simp [hc]

/-- A read after a write of one byte: the byte written there, what was there before elsewhere (R77). -/
theorem Memory.read_write (m : Memory) (a : Nat) (b : Byte) (c : Nat) :
    (m.write a b).read c = if c = a then b else m.read c := by
  rw [Memory.write]
  split
  · rename_i hb
    rw [Memory.read_erase, hb]
  · rw [Memory.read_insert b (Memory.not_listed_erase m a), Memory.read_erase]
    split <;> rfl

/-- A read after a write of a byte sequence (R9, R77). -/
theorem Memory.read_writeBytes (m : Memory) (a : Nat) (bs : List Byte) (c : Nat) :
    (m.writeBytes a bs).read c = if a ≤ c ∧ c < a + bs.length then bs.getD (c - a) 0 else m.read c := by
  induction bs generalizing m a with
  | nil =>
    rw [if_neg (by simp)]
    rfl
  | cons b bs ih =>
    rw [Memory.writeBytes, ih, Memory.read_write, List.length_cons]
    by_cases h1 : a + 1 ≤ c ∧ c < a + 1 + bs.length
    · rw [if_pos h1, if_pos (by omega), show c - a = (c - (a + 1)) + 1 by omega, List.getD_cons_succ]
    · rw [if_neg h1]
      by_cases h2 : c = a
      · subst h2; simp
      · rw [if_neg h2, if_neg (by omega)]

/-- Outside the bytes stored, memory reads as before. -/
theorem Memory.read_writeBytes_outside {m : Memory} {a : Nat} {bs : List Byte} {c : Nat}
    (h : c < a ∨ a + bs.length ≤ c) : (m.writeBytes a bs).read c = m.read c := by
  rw [Memory.read_writeBytes, if_neg (by omega)]

theorem Memory.read_writeBlock (m : Memory) (a : Nat) (v : Block) (c : Nat) :
    (m.writeBlock a v).read c = if a ≤ c ∧ c < a + 16 then v.byte (c - a) else m.read c :=
  Memory.read_writeBytes m a v.toList c

theorem Memory.read_writeBlock_outside {m : Memory} {a : Nat} {v : Block} {c : Nat}
    (h : c < a ∨ a + 16 ≤ c) : (m.writeBlock a v).read c = m.read c := by
  rw [Memory.read_writeBlock, if_neg (by omega)]

@[simp] theorem Memory.readBytes_length (m : Memory) (a n : Nat) : (m.readBytes a n).length = n := by
  simp [Memory.readBytes]

theorem Memory.getD_readBytes (m : Memory) (a : Nat) {n k : Nat} (h : k < n) :
    (m.readBytes a n).getD k 0 = m.read (a + k) := by
  rw [List.getD_eq_getElem _ _ (by simpa using h)]
  simp [Memory.readBytes]

theorem Memory.byte_readBlock (m : Memory) (a : Nat) {k : Nat} (h : k < 16) :
    (m.readBlock a).byte k = m.read (a + k) := Block.byte_ofFn _ h

theorem Memory.toList_readBlock (m : Memory) (a : Nat) : (m.readBlock a).toList = m.readBytes a 16 := rfl

theorem Memory.readBlock_congr {m m' : Memory} {a : Nat} (h : ∀ k, k < 16 → m.read (a + k) = m'.read (a + k)) :
    m.readBlock a = m'.readBlock a := Block.ofFn_congr h

/-- The block just written is the block read there. -/
@[simp] theorem Memory.readBlock_writeBlock (m : Memory) (a : Nat) (v : Block) : (m.writeBlock a v).readBlock a = v := by
  refine Block.ext_byte fun k hk => ?_
  rw [Memory.byte_readBlock _ _ hk, Memory.read_writeBlock, if_pos (by omega)]
  congr 1; omega

/-- A block that does not meet the block just written reads as before. -/
theorem Memory.readBlock_writeBlock_apart {m : Memory} {a c : Nat} {v : Block} (h : c + 16 ≤ a ∨ a + 16 ≤ c) :
    (m.writeBlock a v).readBlock c = m.readBlock c :=
  Memory.readBlock_congr fun k hk => Memory.read_writeBlock_outside (by omega)

/-! ### The canonical form -/

theorem Memory.wf_iff (m : Memory) :
    m.wf = true ↔ m.Pairwise (fun c d => c.1 < d.1) ∧ ∀ c ∈ m, c.2 ≠ unlistedByte ∧ c.1 < Config.addrSpace := by
  rw [Memory.wf]
  simp only [Bool.and_eq_true, decide_eq_true_eq, List.all_eq_true, bne_iff_ne, ne_eq]

theorem Memory.nil_wf : Memory.wf [] = true := rfl

theorem Memory.mem_insert {m : Memory} {a : Nat} {b : Byte} {c : Host.Cell} :
    c ∈ Memory.insert m a b → c = (a, b) ∨ c ∈ m := by
  induction m with
  | nil => simp [Memory.insert]
  | cons d m ih =>
    obtain ⟨k, v⟩ := d
    rw [Memory.insert]
    split
    · simp
    · intro h
      rcases List.mem_cons.mp h with h | h
      · exact .inr (by simp [h])
      · rcases ih h with h | h
        · exact .inl h
        · exact .inr (by simp [h])

theorem Memory.insert_pairwise {m : Memory} {a : Nat} (b : Byte) (hm : m.Pairwise fun c d => c.1 < d.1)
    (ha : ∀ c ∈ m, c.1 ≠ a) : (Memory.insert m a b).Pairwise fun c d => c.1 < d.1 := by
  induction m with
  | nil => simp [Memory.insert]
  | cons d m ih =>
    obtain ⟨k, v⟩ := d
    have hk : k ≠ a := ha (k, v) (by simp)
    rw [List.pairwise_cons] at hm
    rw [Memory.insert]
    split
    · rename_i hlt
      refine List.pairwise_cons.mpr ⟨fun c hc => ?_, List.pairwise_cons.mpr hm⟩
      rcases List.mem_cons.mp hc with rfl | hc
      · exact hlt
      · exact Nat.lt_trans hlt (hm.1 c hc)
    · rename_i hge
      refine List.pairwise_cons.mpr ⟨fun c hc => ?_, ih hm.2 fun c hc => ha c (by simp [hc])⟩
      rcases Memory.mem_insert hc with rfl | hc
      · show k < a
        omega
      · exact hm.1 c hc

theorem Memory.erase_wf {m : Memory} (a : Nat) (h : m.wf = true) : (Memory.erase m a).wf = true := by
  rw [Memory.wf_iff] at h ⊢
  exact ⟨h.1.filter _, fun c hc => h.2 c (List.mem_of_mem_filter hc)⟩

/-- A write inside the address space keeps the canonical form. -/
theorem Memory.write_wf {m : Memory} {a : Nat} (b : Byte) (h : m.wf = true) (ha : a < Config.addrSpace) :
    (m.write a b).wf = true := by
  have he := Memory.erase_wf a h
  rw [Memory.write]
  split
  · exact he
  · rename_i hb
    rw [Memory.wf_iff] at he ⊢
    refine ⟨Memory.insert_pairwise b he.1 (Memory.not_listed_erase m a), fun c hc => ?_⟩
    rcases Memory.mem_insert hc with rfl | hc
    · exact ⟨hb, ha⟩
    · exact he.2 c hc

theorem Memory.writeBytes_wf {m : Memory} {a : Nat} {bs : List Byte} (h : m.wf = true)
    (ha : a + bs.length ≤ Config.addrSpace) : (m.writeBytes a bs).wf = true := by
  induction bs generalizing m a with
  | nil => exact h
  | cons b bs ih =>
    rw [List.length_cons] at ha
    exact ih (Memory.write_wf b h (by omega)) (by omega)

theorem Memory.writeBlock_wf {m : Memory} {a : Nat} {v : Block} (h : m.wf = true) (ha : a + 16 ≤ Config.addrSpace) :
    (m.writeBlock a v).wf = true := Memory.writeBytes_wf h ha

/-- An empty sequence stores nothing, wherever it would go. -/
theorem Memory.writeBytes_nil (m : Memory) (a : Nat) : m.writeBytes a [] = m := rfl

/-- In a memory of the canonical form, an address is listed exactly when it does not read as an unlisted one. -/
theorem Memory.read_of_mem {m : Memory} {c : Host.Cell} (h : m.wf = true) (hc : c ∈ m) : m.read c.1 = c.2 := by
  induction m with
  | nil => simp at hc
  | cons d m ih =>
    obtain ⟨k, v⟩ := d
    rw [Memory.wf_iff, List.pairwise_cons] at h
    rw [Memory.read_cons]
    rcases List.mem_cons.mp hc with rfl | hc
    · simp
    · rw [if_neg (Nat.ne_of_lt (h.1.1 c hc))]
      exact ih ((Memory.wf_iff m).mpr ⟨h.1.2, fun d hd => h.2 d (by simp [hd])⟩) hc

/-- Memories in the canonical form with equal bytes are equal. -/
theorem Memory.ext_read {m m' : Memory} (h : m.wf = true) (h' : m'.wf = true) (e : ∀ a, m.read a = m'.read a) :
    m = m' := by
  have key : ∀ {x y : Memory}, x.wf = true → y.wf = true → (∀ a, x.read a = y.read a) → ∀ c ∈ x, c ∈ y := by
    intro x y hx hy hxy c hc
    by_contra hn
    have hr : y.read c.1 = c.2 := by rw [← hxy, Memory.read_of_mem hx hc]
    by_cases hl : ∃ d ∈ y, d.1 = c.1
    · obtain ⟨d, hd, hdc⟩ := hl
      have : d.2 = c.2 := by rw [← Memory.read_of_mem hy hd, hdc, hr]
      exact hn (by rw [← Prod.ext hdc this]; exact hd)
    · rw [Memory.read_of_not_listed (fun d hd hdc => hl ⟨d, hd, hdc⟩)] at hr
      exact ((Memory.wf_iff x).mp hx).2 c hc |>.1 hr.symm
  have hs := ((Memory.wf_iff m).mp h).1
  have hs' := ((Memory.wf_iff m').mp h').1
  have irr : ∀ x : Host.Cell, ¬ x.1 < x.1 := fun x => Nat.lt_irrefl _
  have nd : ∀ {x : Memory}, x.Pairwise (fun c d => c.1 < d.1) → x.Nodup :=
    fun hx => List.Pairwise.imp (fun {c d} (hcd : c.1 < d.1) (he : c = d) => irr d (he ▸ hcd)) hx
  have hp : m.Perm m' := (List.perm_ext_iff_of_nodup (nd hs) (nd hs')).mpr
    fun c => ⟨key h h' e c, key h' h (fun a => (e a).symm) c⟩
  exact hp.eq_of_pairwise (fun c d _ _ h1 h2 => absurd h1 (by omega)) hs hs'

end Sys2Proof.Machine
end

