-- ==== Sys2Proof/Laws/State.lean ====
section
/-! SUPPORT. One lemma per field per update of the state, so that no later proof unfolds a record update. -/

namespace Sys2Proof.Machine

variable (s : State)

/-! ### State.mark -/

@[simp] theorem mark_ctx (r : FaultReason) : (s.mark r).ctx = s.ctx := rfl
@[simp] theorem mark_opa (r : FaultReason) : (s.mark r).opa = s.opa := rfl
@[simp] theorem mark_opb (r : FaultReason) : (s.mark r).opb = s.opb := rfl
@[simp] theorem mark_oplen (r : FaultReason) : (s.mark r).oplen = s.oplen := rfl
@[simp] theorem mark_ovr (r : FaultReason) : (s.mark r).ovr = s.ovr := rfl
@[simp] theorem mark_err (r : FaultReason) : (s.mark r).err = s.err := rfl
@[simp] theorem mark_pending (r : FaultReason) : (s.mark r).pending = s.pending := rfl
@[simp] theorem mark_fault (r : FaultReason) : (s.mark r).fault = some (s.fault.getD r) := rfl
@[simp] theorem mark_mem (r : FaultReason) : (s.mark r).mem = s.mem := rfl
@[simp] theorem mark_platform (r : FaultReason) : (s.mark r).platform = s.platform := rfl
@[simp] theorem mark_schedule (r : FaultReason) : (s.mark r).schedule = s.schedule := rfl
@[simp] theorem mark_hostRead (r : FaultReason) : (s.mark r).hostRead = s.hostRead := rfl
@[simp] theorem mark_raced (r : FaultReason) : (s.mark r).raced = s.raced := rfl
@[simp] theorem mark_freeCtr (r : FaultReason) : (s.mark r).freeCtr = s.freeCtr := rfl

/-! ### State.drawn -/

@[simp] theorem drawn_ctx (n : Nat) : (s.drawn n).ctx = s.ctx := rfl
@[simp] theorem drawn_opa (n : Nat) : (s.drawn n).opa = s.opa := rfl
@[simp] theorem drawn_opb (n : Nat) : (s.drawn n).opb = s.opb := rfl
@[simp] theorem drawn_oplen (n : Nat) : (s.drawn n).oplen = s.oplen := rfl
@[simp] theorem drawn_ovr (n : Nat) : (s.drawn n).ovr = s.ovr := rfl
@[simp] theorem drawn_err (n : Nat) : (s.drawn n).err = s.err := rfl
@[simp] theorem drawn_pending (n : Nat) : (s.drawn n).pending = s.pending := rfl
@[simp] theorem drawn_fault (n : Nat) : (s.drawn n).fault = s.fault := rfl
@[simp] theorem drawn_mem (n : Nat) : (s.drawn n).mem = s.mem := rfl
@[simp] theorem drawn_platform (n : Nat) : (s.drawn n).platform = s.platform := rfl
@[simp] theorem drawn_schedule (n : Nat) : (s.drawn n).schedule = s.schedule := rfl
@[simp] theorem drawn_hostRead (n : Nat) : (s.drawn n).hostRead = s.hostRead := rfl
@[simp] theorem drawn_raced (n : Nat) : (s.drawn n).raced = s.raced := rfl
@[simp] theorem drawn_freeCtr (n : Nat) : (s.drawn n).freeCtr = s.freeCtr + n := rfl

/-! ### State.freeMem -/

@[simp] theorem freeMem_ctx (a n : Nat) : (s.freeMem a n).ctx = s.ctx := rfl
@[simp] theorem freeMem_opa (a n : Nat) : (s.freeMem a n).opa = s.opa := rfl
@[simp] theorem freeMem_opb (a n : Nat) : (s.freeMem a n).opb = s.opb := rfl
@[simp] theorem freeMem_oplen (a n : Nat) : (s.freeMem a n).oplen = s.oplen := rfl
@[simp] theorem freeMem_ovr (a n : Nat) : (s.freeMem a n).ovr = s.ovr := rfl
@[simp] theorem freeMem_err (a n : Nat) : (s.freeMem a n).err = s.err := rfl
@[simp] theorem freeMem_pending (a n : Nat) : (s.freeMem a n).pending = s.pending := rfl
@[simp] theorem freeMem_fault (a n : Nat) : (s.freeMem a n).fault = s.fault := rfl
@[simp] theorem freeMem_mem (a n : Nat) : (s.freeMem a n).mem = s.mem.writeBytes a (s.freeBytes n) := rfl
@[simp] theorem freeMem_platform (a n : Nat) : (s.freeMem a n).platform = s.platform := rfl
@[simp] theorem freeMem_schedule (a n : Nat) : (s.freeMem a n).schedule = s.schedule := rfl
@[simp] theorem freeMem_hostRead (a n : Nat) : (s.freeMem a n).hostRead = s.hostRead := rfl
@[simp] theorem freeMem_raced (a n : Nat) : (s.freeMem a n).raced = s.raced := rfl
@[simp] theorem freeMem_freeCtr (a n : Nat) : (s.freeMem a n).freeCtr = s.freeCtr + n := rfl

/-! ### State.freeIv -/

@[simp] theorem freeIv_ctx : (s.freeIv).ctx = { s.ctx with iv := .ofList (s.freeBytes 16) } := rfl
@[simp] theorem freeIv_opa : (s.freeIv).opa = s.opa := rfl
@[simp] theorem freeIv_opb : (s.freeIv).opb = s.opb := rfl
@[simp] theorem freeIv_oplen : (s.freeIv).oplen = s.oplen := rfl
@[simp] theorem freeIv_ovr : (s.freeIv).ovr = s.ovr := rfl
@[simp] theorem freeIv_err : (s.freeIv).err = s.err := rfl
@[simp] theorem freeIv_pending : (s.freeIv).pending = s.pending := rfl
@[simp] theorem freeIv_fault : (s.freeIv).fault = s.fault := rfl
@[simp] theorem freeIv_mem : (s.freeIv).mem = s.mem := rfl
@[simp] theorem freeIv_platform : (s.freeIv).platform = s.platform := rfl
@[simp] theorem freeIv_schedule : (s.freeIv).schedule = s.schedule := rfl
@[simp] theorem freeIv_hostRead : (s.freeIv).hostRead = s.hostRead := rfl
@[simp] theorem freeIv_raced : (s.freeIv).raced = s.raced := rfl
@[simp] theorem freeIv_freeCtr : (s.freeIv).freeCtr = s.freeCtr + 16 := rfl

/-! ### State.freeScr -/

@[simp] theorem freeScr_ctx : (s.freeScr).ctx = { s.ctx with scr := .ofList (s.freeBytes 16) } := rfl
@[simp] theorem freeScr_opa : (s.freeScr).opa = s.opa := rfl
@[simp] theorem freeScr_opb : (s.freeScr).opb = s.opb := rfl
@[simp] theorem freeScr_oplen : (s.freeScr).oplen = s.oplen := rfl
@[simp] theorem freeScr_ovr : (s.freeScr).ovr = s.ovr := rfl
@[simp] theorem freeScr_err : (s.freeScr).err = s.err := rfl
@[simp] theorem freeScr_pending : (s.freeScr).pending = s.pending := rfl
@[simp] theorem freeScr_fault : (s.freeScr).fault = s.fault := rfl
@[simp] theorem freeScr_mem : (s.freeScr).mem = s.mem := rfl
@[simp] theorem freeScr_platform : (s.freeScr).platform = s.platform := rfl
@[simp] theorem freeScr_schedule : (s.freeScr).schedule = s.schedule := rfl
@[simp] theorem freeScr_hostRead : (s.freeScr).hostRead = s.hostRead := rfl
@[simp] theorem freeScr_raced : (s.freeScr).raced = s.raced := rfl
@[simp] theorem freeScr_freeCtr : (s.freeScr).freeCtr = s.freeCtr + 16 := rfl

/-! ### State.freeRk -/

@[simp] theorem freeRk_ctx : (s.freeRk).ctx = { s.ctx with rk := .ofBytes (s.freeBytes 240) } := rfl
@[simp] theorem freeRk_opa : (s.freeRk).opa = s.opa := rfl
@[simp] theorem freeRk_opb : (s.freeRk).opb = s.opb := rfl
@[simp] theorem freeRk_oplen : (s.freeRk).oplen = s.oplen := rfl
@[simp] theorem freeRk_ovr : (s.freeRk).ovr = s.ovr := rfl
@[simp] theorem freeRk_err : (s.freeRk).err = s.err := rfl
@[simp] theorem freeRk_pending : (s.freeRk).pending = s.pending := rfl
@[simp] theorem freeRk_fault : (s.freeRk).fault = s.fault := rfl
@[simp] theorem freeRk_mem : (s.freeRk).mem = s.mem := rfl
@[simp] theorem freeRk_platform : (s.freeRk).platform = s.platform := rfl
@[simp] theorem freeRk_schedule : (s.freeRk).schedule = s.schedule := rfl
@[simp] theorem freeRk_hostRead : (s.freeRk).hostRead = s.hostRead := rfl
@[simp] theorem freeRk_raced : (s.freeRk).raced = s.raced := rfl
@[simp] theorem freeRk_freeCtr : (s.freeRk).freeCtr = s.freeCtr + 240 := rfl

/-! ### State.freeKv -/

@[simp] theorem freeKv_ctx :
    (s.freeKv).ctx = { s.ctx with kv := variantOfCode ((Config.freeByte s.freeCtr).extractLsb' 0 2) } := rfl
@[simp] theorem freeKv_opa : (s.freeKv).opa = s.opa := rfl
@[simp] theorem freeKv_opb : (s.freeKv).opb = s.opb := rfl
@[simp] theorem freeKv_oplen : (s.freeKv).oplen = s.oplen := rfl
@[simp] theorem freeKv_ovr : (s.freeKv).ovr = s.ovr := rfl
@[simp] theorem freeKv_err : (s.freeKv).err = s.err := rfl
@[simp] theorem freeKv_pending : (s.freeKv).pending = s.pending := rfl
@[simp] theorem freeKv_fault : (s.freeKv).fault = s.fault := rfl
@[simp] theorem freeKv_mem : (s.freeKv).mem = s.mem := rfl
@[simp] theorem freeKv_platform : (s.freeKv).platform = s.platform := rfl
@[simp] theorem freeKv_schedule : (s.freeKv).schedule = s.schedule := rfl
@[simp] theorem freeKv_hostRead : (s.freeKv).hostRead = s.hostRead := rfl
@[simp] theorem freeKv_raced : (s.freeKv).raced = s.raced := rfl
@[simp] theorem freeKv_freeCtr : (s.freeKv).freeCtr = s.freeCtr + 1 := rfl

/-! ### State.finish -/

@[simp] theorem finish_ctx (e : ErrCode) : (s.finish e).ctx = s.ctx := rfl
@[simp] theorem finish_opa (e : ErrCode) : (s.finish e).opa = s.opa := rfl
@[simp] theorem finish_opb (e : ErrCode) : (s.finish e).opb = s.opb := rfl
@[simp] theorem finish_oplen (e : ErrCode) : (s.finish e).oplen = s.oplen := rfl
@[simp] theorem finish_ovr (e : ErrCode) : (s.finish e).ovr = s.ovr := rfl
@[simp] theorem finish_err (e : ErrCode) : (s.finish e).err = e := rfl
@[simp] theorem finish_pending (e : ErrCode) : (s.finish e).pending = none := rfl
@[simp] theorem finish_fault (e : ErrCode) : (s.finish e).fault = s.fault := rfl
@[simp] theorem finish_mem (e : ErrCode) : (s.finish e).mem = s.mem := rfl
@[simp] theorem finish_platform (e : ErrCode) : (s.finish e).platform = s.platform := rfl
@[simp] theorem finish_schedule (e : ErrCode) : (s.finish e).schedule = s.schedule := rfl
@[simp] theorem finish_hostRead (e : ErrCode) : (s.finish e).hostRead = s.hostRead := rfl
@[simp] theorem finish_raced (e : ErrCode) : (s.finish e).raced = false := rfl
@[simp] theorem finish_freeCtr (e : ErrCode) : (s.finish e).freeCtr = s.freeCtr := rfl

/-! ### State.withRun -/

@[simp] theorem withRun_ctx (r : Run) : (s.withRun r).ctx = { s.ctx with iv := r.iv, scr := r.scr } := rfl
@[simp] theorem withRun_opa (r : Run) : (s.withRun r).opa = s.opa := rfl
@[simp] theorem withRun_opb (r : Run) : (s.withRun r).opb = s.opb := rfl
@[simp] theorem withRun_oplen (r : Run) : (s.withRun r).oplen = s.oplen := rfl
@[simp] theorem withRun_ovr (r : Run) : (s.withRun r).ovr = s.ovr := rfl
@[simp] theorem withRun_err (r : Run) : (s.withRun r).err = s.err := rfl
@[simp] theorem withRun_pending (r : Run) : (s.withRun r).pending = s.pending := rfl
@[simp] theorem withRun_fault (r : Run) : (s.withRun r).fault = s.fault := rfl
@[simp] theorem withRun_mem (r : Run) : (s.withRun r).mem = r.mem := rfl
@[simp] theorem withRun_platform (r : Run) : (s.withRun r).platform = s.platform := rfl
@[simp] theorem withRun_schedule (r : Run) : (s.withRun r).schedule = s.schedule := rfl
@[simp] theorem withRun_hostRead (r : Run) : (s.withRun r).hostRead = s.hostRead := rfl
@[simp] theorem withRun_raced (r : Run) : (s.withRun r).raced = s.raced := rfl
@[simp] theorem withRun_freeCtr (r : Run) : (s.withRun r).freeCtr = s.freeCtr := rfl

/-! ### State.returning -/

@[simp] theorem returning_ctx (v : Reg32) : (s.returning v).ctx = s.ctx := rfl
@[simp] theorem returning_opa (v : Reg32) : (s.returning v).opa = s.opa := rfl
@[simp] theorem returning_opb (v : Reg32) : (s.returning v).opb = s.opb := rfl
@[simp] theorem returning_oplen (v : Reg32) : (s.returning v).oplen = s.oplen := rfl
@[simp] theorem returning_ovr (v : Reg32) : (s.returning v).ovr = s.ovr := rfl
@[simp] theorem returning_err (v : Reg32) : (s.returning v).err = s.err := rfl
@[simp] theorem returning_pending (v : Reg32) : (s.returning v).pending = s.pending := rfl
@[simp] theorem returning_fault (v : Reg32) : (s.returning v).fault = s.fault := rfl
@[simp] theorem returning_mem (v : Reg32) : (s.returning v).mem = s.mem := rfl
@[simp] theorem returning_platform (v : Reg32) : (s.returning v).platform = s.platform := rfl
@[simp] theorem returning_schedule (v : Reg32) : (s.returning v).schedule = s.schedule := rfl
@[simp] theorem returning_hostRead (v : Reg32) : (s.returning v).hostRead = some v := rfl
@[simp] theorem returning_raced (v : Reg32) : (s.returning v).raced = s.raced := rfl
@[simp] theorem returning_freeCtr (v : Reg32) : (s.returning v).freeCtr = s.freeCtr := rfl

/-! ### State.race -/

@[simp] theorem race_ctx : (s.race).ctx = s.ctx := rfl
@[simp] theorem race_opa : (s.race).opa = s.opa := rfl
@[simp] theorem race_opb : (s.race).opb = s.opb := rfl
@[simp] theorem race_oplen : (s.race).oplen = s.oplen := rfl
@[simp] theorem race_ovr : (s.race).ovr = s.ovr := rfl
@[simp] theorem race_err : (s.race).err = s.err := rfl
@[simp] theorem race_pending : (s.race).pending = s.pending := rfl
@[simp] theorem race_fault : (s.race).fault = some (s.fault.getD .hostRace) := rfl
@[simp] theorem race_mem : (s.race).mem = s.mem := rfl
@[simp] theorem race_platform : (s.race).platform = s.platform := rfl
@[simp] theorem race_schedule : (s.race).schedule = s.schedule := rfl
@[simp] theorem race_hostRead : (s.race).hostRead = s.hostRead := rfl
@[simp] theorem race_raced : (s.race).raced = true := rfl
@[simp] theorem race_freeCtr : (s.race).freeCtr = s.freeCtr := rfl

/-! ### resetCore -/

@[simp] theorem resetCore_ctx : (resetCore s).ctx = .reset := rfl
@[simp] theorem resetCore_opa : (resetCore s).opa = 0 := rfl
@[simp] theorem resetCore_opb : (resetCore s).opb = 0 := rfl
@[simp] theorem resetCore_oplen : (resetCore s).oplen = 0 := rfl
@[simp] theorem resetCore_ovr : (resetCore s).ovr = false := rfl
@[simp] theorem resetCore_err : (resetCore s).err = .ok := rfl
@[simp] theorem resetCore_pending : (resetCore s).pending = none := rfl
@[simp] theorem resetCore_fault : (resetCore s).fault = s.fault := rfl
@[simp] theorem resetCore_mem : (resetCore s).mem = s.mem := rfl
@[simp] theorem resetCore_platform : (resetCore s).platform = s.platform := rfl
@[simp] theorem resetCore_schedule : (resetCore s).schedule = s.schedule := rfl
@[simp] theorem resetCore_hostRead : (resetCore s).hostRead = s.hostRead := rfl
@[simp] theorem resetCore_raced : (resetCore s).raced = false := rfl
@[simp] theorem resetCore_freeCtr : (resetCore s).freeCtr = s.freeCtr := rfl

/-! ### Functions of the state that an update leaves alone -/

@[simp] theorem raiseError_eq_finish (e : ErrCode) : s.raiseError e = s.finish e := rfl

@[simp] theorem finish_busy (e : ErrCode) : (s.finish e).busy = false := rfl

@[simp] theorem run_withRun (r : Run) : (s.withRun r).run = r := rfl

@[simp] theorem withRun_run : s.withRun s.run = s := rfl

@[simp] theorem run_mem : s.run.mem = s.mem := rfl

@[simp] theorem run_iv : s.run.iv = s.ctx.iv := rfl

@[simp] theorem run_scr : s.run.scr = s.ctx.scr := rfl

@[simp] theorem freeBytes_length (n : Nat) : (s.freeBytes n).length = n := by simp [State.freeBytes]

/-- BUSY reads 1 exactly when the latch is not empty (R49). -/
theorem busy_iff : s.busy = true ↔ ∃ p, s.pending = some p := Option.isSome_iff_exists

/-- A mark, once set, keeps its first reason (log entry 14). -/
theorem mark_fault_of_some {r q : FaultReason} (h : s.fault = some q) : (s.mark r).fault = some q := by
  simp [h]

end Sys2Proof.Machine
end

