-- ==== Sys2Proof/Laws/Complete.lean ====
section
/-! SUPPORT. What completing a command can do, said once: the checks, the scan of the regions, the three ways a completion
goes, and its inversion. -/

namespace Sys2Proof.Machine

/-! ### The scan of the platform's map -/

theorem scan_plain_iff (pf : Platform) (a n : Nat) :
    pf.scan a n = .plain ↔ ∀ k, k < n → pf.kindAt (a + k) = .plain := by
  induction n generalizing a with
  | zero => simp [Platform.scan]
  | succ n ih =>
    rw [Platform.scan]
    constructor
    · intro h k hk
      cases ha : pf.kindAt a with
      | plain =>
        rw [ha] at h
        rcases Nat.eq_zero_or_pos k with rfl | hp
        · simpa using ha
        · have := (ih (a + 1)).mp h (k - 1) (by omega)
          rwa [show a + 1 + (k - 1) = a + k by omega] at this
      | unanswered => simp [ha] at h
      | device => simp [ha] at h
    · intro h
      have h0 := h 0 (by omega)
      rw [Nat.add_zero] at h0
      rw [h0]
      exact (ih (a + 1)).mpr fun k hk => by
        rw [show a + 1 + k = a + (k + 1) by omega]
        exact h (k + 1) (by omega)

theorem scanRegions_cons (pf : Platform) (r : Region) (rs : List Region) :
    scanRegions pf (r :: rs) = .plain ↔ pf.scan r.base r.len = .plain ∧ scanRegions pf rs = .plain := by
  rw [scanRegions]
  cases h : pf.scan r.base r.len <;> simp

/-- Every address of every region is plain memory exactly when the scan says so. -/
theorem scanRegions_plain_iff (pf : Platform) (rs : List Region) :
    scanRegions pf rs = .plain ↔ ∀ r ∈ rs, ∀ k, k < r.len → pf.kindAt (r.base + k) = .plain := by
  induction rs with
  | nil => simp [scanRegions]
  | cons r rs ih => rw [scanRegions_cons, scan_plain_iff, ih]; simp

/-! ### The checks -/

/-- Every check passes exactly when none of the four conditions holds (R302). -/
theorem check_ok_iff (i : Instr) (p : Pending) (kv : Option Variant) :
    check i p kv = .ok ↔
      uninitialized i kv = false ∧ badKeyLength i p = false ∧ badBufferLength i p = false ∧ badRange i p = false := by
  rw [check]
  cases uninitialized i kv <;> cases badKeyLength i p <;> cases badBufferLength i p <;> cases badRange i p <;> simp

/-- The checks never report a bus fault or an illegal word: those are not theirs (R302). -/
theorem check_ne_busFault (i : Instr) (p : Pending) (kv : Option Variant) : check i p kv ≠ .busFault := by
  rw [check]; split_ifs <;> simp

theorem check_ne_illegalCommand (i : Instr) (p : Pending) (kv : Option Variant) : check i p kv ≠ .illegalCommand := by
  rw [check]; split_ifs <;> simp

/-- When the range check passes, every region that is not empty ends inside the address space (R78). -/
theorem inRange_of_check_ok {i : Instr} {p : Pending} {kv : Option Variant} (h : check i p kv = .ok) :
    ∀ r ∈ regions i p, 0 < r.len → r.base + r.len ≤ Config.addrSpace := by
  intro r hr hl
  have h4 := ((check_ok_iff i p kv).mp h).2.2.2
  rw [badRange, Bool.not_eq_false', List.all_eq_true] at h4
  have := h4 r hr
  simp only [Region.inRange, Bool.or_eq_true, beq_iff_eq, decide_eq_true_eq] at this
  omega

/-! ### The ways a completion goes -/

variable {i : Instr} {body : Pending → State → State} {s : State} {p : Pending}

/-- With nothing pending there is no completion (R300). -/
theorem complete_nothing (h : s.pending = none) : complete i body s = .fault .nothingPending := by
  rw [complete, h]

/-- A failed check ends the command with its code and no other effect (R303). -/
theorem complete_error (hp : s.pending = some p) (hc : check i p s.ctx.kv ≠ .ok) :
    complete i body s = .next (s.finish (check i p s.ctx.kv)) := by
  rw [complete, hp]
  cases h : check i p s.ctx.kv <;> first | exact absurd h hc | simp [h]

/-- With the checks passed, plain memory and no race, a command is its body and ends with code 0 (R300). -/
theorem complete_body (hp : s.pending = some p) (hc : check i p s.ctx.kv = .ok)
    (hs : scanRegions s.platform (regions i p) = .plain) (hr : (body p s).raced = false) :
    complete i body s = .next ((body p s).finish .ok) := by
  simp [complete, hp, hc, hs, settleRace, hr]

/-- With the checks passed and an address that the platform does not answer, the command takes a bus fault (R309). -/
theorem complete_busFault (hp : s.pending = some p) (hc : check i p s.ctx.kv = .ok)
    (hs : scanRegions s.platform (regions i p) = .unanswered) :
    complete i body s = .next ((settleRace i p (takeBusFault i p s)).finish .busFault) := by
  simp [complete, hp, hc, hs]

/-- Everything a completion that answers a next state can be. -/
theorem complete_cases {t : State} (h : complete i body s = .next t) :
    ∃ p, s.pending = some p ∧
      ((check i p s.ctx.kv ≠ .ok ∧ t = s.finish (check i p s.ctx.kv)) ∨
       (check i p s.ctx.kv = .ok ∧ scanRegions s.platform (regions i p) = .plain ∧
          t = (settleRace i p (body p s)).finish .ok) ∨
       (check i p s.ctx.kv = .ok ∧ scanRegions s.platform (regions i p) = .unanswered ∧
          t = (settleRace i p (takeBusFault i p s)).finish .busFault)) := by
  cases hp : s.pending with
  | none => rw [complete_nothing hp] at h; cases h
  | some p =>
    refine ⟨p, rfl, ?_⟩
    by_cases hc : check i p s.ctx.kv = .ok
    · cases hs : scanRegions s.platform (regions i p) <;> simp [complete, hp, hc, hs] at h
      · exact .inr (.inl ⟨hc, rfl, h.symm⟩)
      · exact .inr (.inr ⟨hc, rfl, h.symm⟩)
    · rw [complete_error hp hc] at h
      exact .inl ⟨hc, by injection h with h; exact h.symm⟩

/-! ### Free values: what they may touch -/

/-- Making regions free values touches data memory and the counter of free values, and nothing else. -/
theorem freeRegions_eq (s : State) (rs : List Region) :
    ∃ m n, s.freeRegions rs = { s with mem := m, freeCtr := n } := by
  induction rs generalizing s with
  | nil => exact ⟨s.mem, s.freeCtr, rfl⟩
  | cons r rs ih =>
    obtain ⟨m, n, h⟩ := ih (s.freeMem r.base r.len)
    exact ⟨m, n, by rw [State.freeRegions, List.foldl_cons]; exact h⟩

/-- Outside the regions made free, memory reads as before. -/
theorem freeRegions_read {s : State} {rs : List Region} {a : Nat} (h : ∀ r ∈ rs, r.holds a = false) :
    (s.freeRegions rs).mem.read a = s.mem.read a := by
  induction rs generalizing s with
  | nil => rfl
  | cons r rs ih =>
    rw [State.freeRegions, List.foldl_cons]
    refine (ih (s := s.freeMem r.base r.len) fun q hq => h q (by simp [hq])).trans ?_
    have hr := h r (by simp)
    simp only [Region.holds, decide_eq_false_iff_not] at hr
    rw [freeMem_mem]
    exact Memory.read_writeBytes_outside (by rw [freeBytes_length]; omega)

/-- Regions inside the address space keep the canonical form when they become free values. -/
theorem freeRegions_wf {s : State} {rs : List Region} (h : s.mem.wf = true)
    (hr : ∀ r ∈ rs, 0 < r.len → r.base + r.len ≤ Config.addrSpace) : (s.freeRegions rs).mem.wf = true := by
  induction rs generalizing s with
  | nil => exact h
  | cons r rs ih =>
    rw [State.freeRegions, List.foldl_cons]
    refine ih (s := s.freeMem r.base r.len) ?_ fun q hq => hr q (by simp [hq])
    rw [freeMem_mem]
    rcases Nat.eq_zero_or_pos r.len with h0 | hpos
    · rw [h0, show s.freeBytes 0 = [] from rfl]
      exact h
    · exact Memory.writeBytes_wf h (by rw [freeBytes_length]; exact hr r (by simp) hpos)

/-- With no race there is nothing to settle. -/
theorem settleRace_of_not_raced (h : s.raced = false) : settleRace i p s = s := by
  simp [settleRace, h]

/-- Settling a race touches data memory, the context but for `ctx.KV`, and the counter of free values. -/
theorem settleRace_eq (i : Instr) (p : Pending) (s : State) :
    ∃ m rk iv scr n, settleRace i p s =
      { s with mem := m, ctx := { s.ctx with rk := rk, iv := iv, scr := scr }, freeCtr := n } := by
  rw [settleRace]
  split
  · obtain ⟨m, n, h⟩ := freeRegions_eq s (regions i p)
    rw [h]
    split
    · exact ⟨_, _, _, _, _, rfl⟩
    · exact ⟨_, _, _, _, _, rfl⟩
  · exact ⟨_, _, _, _, _, rfl⟩

/-- A bus fault touches data memory, the context, the mark and the counter of free values. -/
theorem takeBusFault_eq (i : Instr) (p : Pending) (s : State) :
    ∃ m c n, takeBusFault i p s =
      { s with mem := m, ctx := c, fault := some (s.fault.getD .busFault), freeCtr := n } := by
  rw [takeBusFault]
  obtain ⟨m, n, h⟩ := freeRegions_eq s ((regions i p).filter (·.written))
  rw [h]
  split
  · exact ⟨_, _, _, rfl⟩
  · exact ⟨_, _, _, rfl⟩

/-! ### The block loop -/

/-- A loop over m + n blocks is a loop over m, then one over the next n. -/
theorem forBlocks_add {α : Type} (f : Nat → α → α) (m n j : Nat) (r : α) :
    forBlocks f (m + n) j r = forBlocks f n (j + m) (forBlocks f m j r) := by
  induction m generalizing j r with
  | zero => simp [forBlocks]
  | succ m ih =>
    rw [show m + 1 + n = (m + n) + 1 by omega, forBlocks, forBlocks, ih, show j + 1 + m = j + (m + 1) by omega]

/-- The last block of a loop. -/
theorem forBlocks_succ {α : Type} (f : Nat → α → α) (n j : Nat) (r : α) :
    forBlocks f (n + 1) j r = f (j + n) (forBlocks f n j r) := by
  rw [forBlocks_add f n 1 j r]; rfl

/-- What every block keeps, the loop keeps. -/
theorem forBlocks_induct {α : Type} {f : Nat → α → α} {P : α → Prop} {n j : Nat} {r : α} (h0 : P r)
    (hs : ∀ k r, j ≤ k → k < j + n → P r → P (f k r)) : P (forBlocks f n j r) := by
  induction n generalizing j r with
  | zero => exact h0
  | succ n ih =>
    exact ih (hs j r (Nat.le_refl j) (by omega) h0) fun k r hk hk' => hs k r (by omega) (by omega)

end Sys2Proof.Machine
end

