-- ==== Sys2Proof/Laws/Check.lean ====
section
/-! SUPPORT. The checks of each command, written out in its operands (R220 to R281, R302). -/

namespace Sys2Proof.Machine

variable {i : Instr} (p : Pending) (kv : Option Variant)

/-- A region fails the range check exactly when it is not empty and ends past 2^32 (R78, R308). -/
theorem inRange_eq_false_iff (r : Region) : r.inRange = false ↔ 0 < r.len ∧ 2 ^ 32 < r.base + r.len := by
  rw [Region.inRange, Bool.or_eq_false_iff]
  simp only [beq_eq_false_iff_ne, decide_eq_false_iff_not, Config.addrSpace]
  omega

/-- AddressRange is about some region of the command (R308). -/
theorem badRange_iff : badRange i p = true ↔ ∃ r ∈ regions i p, 0 < r.len ∧ 2 ^ 32 < r.base + r.len := by
  rw [badRange, Bool.not_eq_true', List.all_eq_false]
  simp only [Bool.not_eq_true, inRange_eq_false_iff]

/-- The check order of R302, in words about the command. -/
theorem check_eq : check i p kv =
    if isMode i = true ∧ kv = none then .uninitializedContext
    else if ∃ v, initVariant i = some v ∧ p.l.toNat ≠ 4 * v.nk then .invalidKeyLength
    else if isCbc i = true ∧ p.l.toNat % 16 ≠ 0 then .invalidBufferLength
    else if ∃ r ∈ regions i p, 0 < r.len ∧ 2 ^ 32 < r.base + r.len then .addressRange
    else .ok := by
  have h1 : uninitialized i kv = true ↔ isMode i = true ∧ kv = none := by simp [uninitialized]
  have h2 : badKeyLength i p = true ↔ ∃ v, initVariant i = some v ∧ p.l.toNat ≠ 4 * v.nk := by
    rw [badKeyLength]
    cases initVariant i <;> simp
  have h3 : badBufferLength i p = true ↔ isCbc i = true ∧ p.l.toNat % 16 ≠ 0 := by simp [badBufferLength]
  simp only [check, h1, h2, h3, badRange_iff]

/-- INIT_KEY: length, then range (R220). -/
theorem check_initKey {v : Variant}
    (h : (i, v) ∈ [(Instr.initKeyAes128, Variant.aes128), (.initKeyAes192, .aes192), (.initKeyAes256, .aes256)]) :
    check i p kv = if p.l.toNat ≠ 4 * v.nk then .invalidKeyLength
      else if 2 ^ 32 < p.a.toNat + p.l.toNat then .addressRange else .ok := by
  have hp : 0 < v.nk := by cases v <;> decide
  have h1 : isMode i = false ∧ initVariant i = some v ∧ isCbc i = false ∧
      regions i p = [⟨p.a.toNat, p.l.toNat, true, false⟩] := by
    simp only [List.mem_cons, Prod.mk.injEq, List.not_mem_nil, or_false] at h
    rcases h with ⟨rfl, rfl⟩ | ⟨rfl, rfl⟩ | ⟨rfl, rfl⟩ <;> exact ⟨rfl, rfl, rfl, rfl⟩
  rw [check_eq, h1.1, h1.2.1, h1.2.2.1, h1.2.2.2]
  by_cases hl : p.l.toNat = 4 * v.nk
  · have : 0 < p.l.toNat := by omega
    simp [hl, hp]
  · simp [hl]

/-- INIT_KEY_IV: length, then the range of either region (R221). -/
theorem check_initKeyIv {v : Variant}
    (h : (i, v) ∈ [(Instr.initKeyIvAes128, Variant.aes128), (.initKeyIvAes192, .aes192),
      (.initKeyIvAes256, .aes256)]) :
    check i p kv = if p.l.toNat ≠ 4 * v.nk then .invalidKeyLength
      else if 2 ^ 32 < p.a.toNat + p.l.toNat ∨ 2 ^ 32 < p.b.toNat + 16 then .addressRange else .ok := by
  have hp : 0 < v.nk := by cases v <;> decide
  have h1 : isMode i = false ∧ initVariant i = some v ∧ isCbc i = false ∧
      regions i p = [⟨p.a.toNat, p.l.toNat, true, false⟩, ⟨p.b.toNat, 16, true, false⟩] := by
    simp only [List.mem_cons, Prod.mk.injEq, List.not_mem_nil, or_false] at h
    rcases h with ⟨rfl, rfl⟩ | ⟨rfl, rfl⟩ | ⟨rfl, rfl⟩ <;> exact ⟨rfl, rfl, rfl, rfl⟩
  rw [check_eq, h1.1, h1.2.1, h1.2.2.1, h1.2.2.2]
  by_cases hl : p.l.toNat = 4 * v.nk
  · simp [hl, hp]
  · simp [hl]

/-- SET_IV and GET_IV: range (R222, R223). -/
theorem check_iv (h : i ∈ [Instr.setIv, .getIv]) :
    check i p kv = if 2 ^ 32 < p.a.toNat + 16 then .addressRange else .ok := by
  simp only [List.mem_cons, List.not_mem_nil, or_false] at h
  rcases h with rfl | rfl <;> simp [check_eq, isMode, initVariant, isCbc, regions]

/-- CLEAR: none (R224). -/
theorem check_clear : check .clear p kv = .ok := rfl

/-- ECB: a key, then range (R240, R241). -/
theorem check_ecb (h : i ∈ [Instr.ecbEnc, .ecbDec]) :
    check i p kv = if kv = none then .uninitializedContext
      else if 2 ^ 32 < p.a.toNat + 16 then .addressRange else .ok := by
  simp only [List.mem_cons, List.not_mem_nil, or_false] at h
  rcases h with rfl | rfl <;> simp [check_eq, isMode, initVariant, isCbc, regions]

/-- CBC: a key, then length, then range; an empty buffer is always in range (R260, R261). -/
theorem check_cbc (h : i ∈ [Instr.cbcEnc, .cbcDec]) :
    check i p kv = if kv = none then .uninitializedContext
      else if p.l.toNat % 16 ≠ 0 then .invalidBufferLength
      else if 0 < p.l.toNat ∧ 2 ^ 32 < p.a.toNat + p.l.toNat then .addressRange else .ok := by
  simp only [List.mem_cons, List.not_mem_nil, or_false] at h
  rcases h with rfl | rfl <;> simp [check_eq, isMode, initVariant, isCbc, regions]

/-- CTR_XCRYPT: a key, then range; there is no length check (R281). -/
theorem check_ctr :
    check .ctrXcrypt p kv = if kv = none then .uninitializedContext
      else if 0 < p.l.toNat ∧ 2 ^ 32 < p.a.toNat + p.l.toNat then .addressRange else .ok := by
  simp [check_eq, isMode, initVariant, isCbc, regions]

end Sys2Proof.Machine
end

