-- ==== Sys2Proof/Laws/KeySchedule.lean ====
section
/-! SUPPORT. Sizes of the key schedule (R170) and the words that the recurrence leaves in place. -/

namespace Sys2Proof.Machine

@[simp] theorem keyWords_length (nk : Nat) (key : List Byte) : (keyWords nk key).length = nk := by simp [keyWords]

/-- Expanding by n words adds n words. -/
theorem expandWords_length (nk n : Nat) (ws : List Word) : (expandWords nk n ws).length = ws.length + n := by
  induction n generalizing ws with
  | zero => rfl
  | succ n ih => rw [expandWords, ih, List.length_append, List.length_singleton]; omega

/-- Words already there stay. -/
theorem expandWords_getD {nk n i : Nat} {ws : List Word} (h : i < ws.length) :
    (expandWords nk n ws).getD i .zero = ws.getD i .zero := by
  induction n generalizing ws with
  | zero => rfl
  | succ n ih =>
    rw [expandWords, ih (by rw [List.length_append]; omega), List.getD_append _ _ _ _ h]

/-- The schedule has 4(Nr+1) words (R170). -/
theorem scheduleWords_length (key : List Byte) (v : Variant) : (scheduleWords key v).length = 4 * (v.nr + 1) := by
  rw [scheduleWords, expandWords_length, keyWords_length]
  cases v <;> rfl

theorem flatMap_toList_length (ws : List Word) : (ws.flatMap Word.toList).length = 4 * ws.length := by
  induction ws with
  | nil => rfl
  | cons w ws ih => rw [List.flatMap_cons, List.length_append, ih, Word.toList_length, List.length_cons]; omega

/-- KeyExpansion gives 16(Nr+1) bytes (R170). -/
theorem keyExpansion_length (key : List Byte) (v : Variant) : (keyExpansion key v).length = 16 * (v.nr + 1) := by
  rw [keyExpansion, flatMap_toList_length, scheduleWords_length]; omega

/-- A schedule never needs more than 240 bytes (R6, R170). -/
theorem keyExpansion_length_le (key : List Byte) (v : Variant) : (keyExpansion key v).length ≤ 240 := by
  rw [keyExpansion_length]; cases v <;> decide

/-- Byte 4i + k of a sequence of words is byte k of word i. -/
theorem getD_flatMap_toList {ws : List Word} {i k : Nat} (hi : i < ws.length) (hk : k < 4) :
    (ws.flatMap Word.toList).getD (4 * i + k) 0 = (ws.getD i .zero).toList.getD k 0 := by
  induction ws generalizing i with
  | nil => simp at hi
  | cons w ws ih =>
    rw [List.flatMap_cons]
    cases i with
    | zero => rw [List.getD_append _ _ _ _ (by simpa using hk)]; simp
    | succ i =>
      rw [List.getD_append_right _ _ _ _ (by rw [Word.toList_length]; omega), Word.toList_length,
        show 4 * (i + 1) + k - 4 = 4 * i + k by omega, ih (by simpa using hi), List.getD_cons_succ]

/-- Word i of the stored schedule is word i of the expansion (R32, R175). -/
theorem word_ofBytes_keyExpansion {key : List Byte} {v : Variant} {i : Nat} (hi : i < 4 * (v.nr + 1)) :
    (Schedule.ofBytes (keyExpansion key v)).word i = (scheduleWords key v).getD i .zero := by
  have hb : ∀ k, k < 4 → (Schedule.ofBytes (keyExpansion key v)).byte (4 * i + k)
      = ((scheduleWords key v).getD i .zero).toList.getD k 0 := fun k hk => by
    rw [Schedule.byte_ofBytes (keyExpansion_length_le key v), keyExpansion,
      getD_flatMap_toList (by rw [scheduleWords_length]; exact hi) hk]
  rw [Schedule.word, Word.ofFn, hb 0 (by decide), hb 1 (by decide), hb 2 (by decide), hb 3 (by decide)]
  rfl

end Sys2Proof.Machine
end

