-- ==== Sys2Proof/Laws/Step.lean ====
section
/-! SUPPORT. What a step can do, said once: whose turn it is, and what each turn can answer. -/

namespace Sys2Proof.Machine

/-- exec is the shared completion with the command's own body: the one place where the fourteen arms are opened. -/
theorem exec_eq_complete (i : Instr) : ∃ body, ∀ s, exec i s = complete i body s := by
  cases i <;> exact ⟨_, fun _ => rfl⟩

theorem step_core {s : State} {rest : List Turn} (h : s.schedule = .core :: rest) :
    step s = coreTurn { s with schedule := rest } := by
  rw [step, takeTurn, h]

theorem step_host {s : State} {op : HostOp} {rest : List Turn} (h : s.schedule = .host op :: rest) :
    step s = hostStep op { s with schedule := rest } := by
  rw [step, takeTurn, h]

theorem step_empty {s : State} (h : s.schedule = []) : step s = coreTurn s := by
  rw [step, takeTurn, h]

/-- Every step is a turn of the core, which is the first one scheduled or follows the last, or a scheduled turn of the host. -/
theorem step_cases (s : State) :
    (∃ rest, (s.schedule = [] ∧ rest = [] ∨ s.schedule = .core :: rest) ∧
      step s = coreTurn { s with schedule := rest }) ∨
    (∃ op rest, s.schedule = .host op :: rest ∧ step s = hostStep op { s with schedule := rest }) := by
  cases h : s.schedule with
  | nil => exact .inl ⟨[], .inl ⟨rfl, rfl⟩, by rw [step_empty h, ← h]⟩
  | cons t rest =>
    cases t with
    | core => exact .inl ⟨rest, .inr rfl, step_core h⟩
    | host op => exact .inr ⟨op, rest, rfl, step_host h⟩

/-- Everything a turn of the core that answers a next state can be. -/
theorem coreTurn_cases {s t : State} (h : coreTurn s = .next t) :
    (s.pending = none ∧ t = s) ∨
    (∃ p, s.pending = some p ∧ (∃ e, decode p.w = .error e) ∧ t = s.finish .illegalCommand) ∨
    (∃ p i, s.pending = some p ∧ decode p.w = .ok i ∧ exec i s = .next t) := by
  rw [coreTurn] at h
  cases hp : s.pending with
  | none => rw [hp] at h; injection h with h; exact .inl ⟨rfl, h.symm⟩
  | some p =>
    rw [hp] at h
    dsimp only at h
    cases hd : decode p.w with
    | error e =>
      rw [hd] at h
      injection h with h
      exact .inr (.inl ⟨p, rfl, ⟨e, hd⟩, h.symm⟩)
    | ok i =>
      rw [hd] at h
      exact .inr (.inr ⟨p, i, rfl, hd, h⟩)

/-- Everything a host read on the register bus that answers a next state can be (R48, R76). -/
theorem hostRegRead_cases {addr : BusAddr} {size : AccessSize} {s t : State} (h : hostRegRead addr size s = .next t) :
    t = ((s.returning (freeReg32 s)).drawn 4).mark .registerAccessRefused ∨ ∃ r, t = s.returning (regValue r s) := by
  rw [hostRegRead] at h
  cases hw : windowHit s.platform.aesBase addr size <;> rw [hw] at h
  · cases h
  · injection h with h; exact .inl h.symm
  · injection h with h; exact .inr ⟨_, h.symm⟩

/-- Everything a host write on the register bus that answers a next state can be (R40, R48, R76). -/
theorem hostRegWrite_cases {addr : BusAddr} {size : AccessSize} {v : Reg32} {s t : State}
    (h : hostRegWrite addr size v s = .next t) :
    t = s.mark .registerAccessRefused ∨ ∃ r, t = regStore r v s := by
  rw [hostRegWrite] at h
  cases hw : windowHit s.platform.aesBase addr size <;> rw [hw] at h
  · cases h
  · injection h with h; exact .inl h.symm
  · injection h with h; exact .inr ⟨_, h.symm⟩

/-- Everything a host read of data memory that answers a next state can be (R77, R345). -/
theorem hostMemRead_cases {addr : Addr} {s t : State} (h : hostMemRead addr s = .next t) :
    (inPendingRegion s addr.toNat = true ∧ t = racingRead s) ∨
    (inPendingRegion s addr.toNat = false ∧ t = s.returning ((s.mem.read addr.toNat).zeroExtend 32)) := by
  rw [hostMemRead] at h
  cases hk : s.platform.kindAt addr.toNat <;> cases hr : inPendingRegion s addr.toNat <;> simp [hk, hr] at h
  · exact .inr ⟨rfl, h.symm⟩
  · exact .inl ⟨rfl, h.symm⟩
  · exact .inl ⟨rfl, h.symm⟩

/-- Everything a host write of data memory that answers a next state can be (R77, R345). -/
theorem hostMemWrite_cases {addr : Addr} {v : Byte} {s t : State} (h : hostMemWrite addr v s = .next t) :
    (inPendingRegion s addr.toNat = true ∧ t = racingWrite addr.toNat v s) ∨
    (inPendingRegion s addr.toNat = false ∧ t = { s with mem := s.mem.write addr.toNat v }) := by
  rw [hostMemWrite] at h
  cases hk : s.platform.kindAt addr.toNat <;> cases hr : inPendingRegion s addr.toNat <;> simp [hk, hr] at h
  · exact .inr ⟨rfl, h.symm⟩
  · exact .inl ⟨rfl, h.symm⟩
  · exact .inl ⟨rfl, h.symm⟩

/-- A racing write touches one byte of memory, the race flag, the mark and the counter of free values. -/
theorem racingWrite_eq (a : Nat) (v : Byte) (s : State) :
    ∃ b n, racingWrite a v s =
      { s with mem := s.mem.write a b, raced := true, fault := some (s.fault.getD .hostRace), freeCtr := n } := by
  rw [racingWrite]
  split
  · exact ⟨_, _, rfl⟩
  · exact ⟨_, _, rfl⟩

/-- A write to CMD touches the latch, OVR, ERR and the race flag only (R40). -/
theorem cmdWrite_eq (w : Reg32) (s : State) :
    ∃ q o e r, cmdWrite w s = { s with pending := q, ovr := o, err := e, raced := r } := by
  rw [cmdWrite]
  split
  · exact ⟨_, _, _, _, rfl⟩
  · exact ⟨_, _, _, _, rfl⟩

/-- The regions a pending command reaches are those of a command whose checks pass, or none. -/
theorem reachedRegions_inRange (s : State) :
    ∀ r ∈ reachedRegions s, 0 < r.len → r.base + r.len ≤ Config.addrSpace := by
  rw [reachedRegions]
  split
  · simp
  · split
    · simp
    · split
      · rename_i hc; exact inRange_of_check_ok hc
      · simp

end Sys2Proof.Machine
end

