-- ==== Sys2Proof/Laws/Exec.lean ====
section
/-! SUPPORT. What a command's body can touch, said once for all fourteen commands, and what follows for exec. -/

namespace Sys2Proof.Machine

/-- The body of each command (R300's table). -/
def bodyOf : Instr → Pending → State → State
  | .initKeyAes128 => initKeyBody .aes128
  | .initKeyAes192 => initKeyBody .aes192
  | .initKeyAes256 => initKeyBody .aes256
  | .initKeyIvAes128 => initKeyIvBody .aes128
  | .initKeyIvAes192 => initKeyIvBody .aes192
  | .initKeyIvAes256 => initKeyIvBody .aes256
  | .setIv => setIvBody
  | .getIv => getIvBody
  | .ecbEnc => ecbEncBody
  | .ecbDec => ecbDecBody
  | .cbcEnc => cbcEncBody
  | .cbcDec => cbcDecBody
  | .ctrXcrypt => ctrBody
  | .clear => clearBody

theorem exec_eq (i : Instr) (s : State) : exec i s = complete i (bodyOf i) s := by cases i <;> rfl

/-- A body touches data memory and the context, and nothing else. -/
theorem bodyOf_eq (i : Instr) (p : Pending) (s : State) :
    ∃ m c, bodyOf i p s = { s with mem := m, ctx := c } := by
  cases i <;> exact ⟨_, _, rfl⟩

@[simp] theorem bodyOf_raced (i : Instr) (p : Pending) (s : State) : (bodyOf i p s).raced = s.raced := by
  obtain ⟨m, c, h⟩ := bodyOf_eq i p s; rw [h]

@[simp] theorem bodyOf_fault (i : Instr) (p : Pending) (s : State) : (bodyOf i p s).fault = s.fault := by
  obtain ⟨m, c, h⟩ := bodyOf_eq i p s; rw [h]

/-- With the checks passed, plain memory and no race, exec is the command's body and ends with code 0 (R300). -/
theorem exec_body {i : Instr} {s : State} {p : Pending} (hp : s.pending = some p) (hr : s.raced = false)
    (hc : check i p s.ctx.kv = .ok) (hs : scanRegions s.platform (regions i p) = .plain) :
    exec i s = .next ((bodyOf i p s).finish .ok) := by
  rw [exec_eq]
  exact complete_body hp hc hs (by rw [bodyOf_raced, hr])

/-- A failed check ends any command with its code and no other effect (R303). -/
theorem exec_error {i : Instr} {s : State} {p : Pending} (hp : s.pending = some p)
    (hc : check i p s.ctx.kv ≠ .ok) : exec i s = .next (s.finish (check i p s.ctx.kv)) := by
  rw [exec_eq]
  exact complete_error hp hc

/-- Everything exec's next state can be. -/
theorem exec_cases {i : Instr} {s t : State} (h : exec i s = .next t) :
    ∃ p, s.pending = some p ∧
      ((check i p s.ctx.kv ≠ .ok ∧ t = s.finish (check i p s.ctx.kv)) ∨
       (check i p s.ctx.kv = .ok ∧ scanRegions s.platform (regions i p) = .plain ∧
          t = (settleRace i p (bodyOf i p s)).finish .ok) ∨
       (check i p s.ctx.kv = .ok ∧ scanRegions s.platform (regions i p) = .unanswered ∧
          t = (settleRace i p (takeBusFault i p s)).finish .busFault)) := by
  rw [exec_eq] at h
  exact complete_cases h

/-- Whatever a completion does, it ends the command and leaves the operand registers, OVR, the platform, the coming turns
and the host's last read alone. -/
theorem exec_next_eq {i : Instr} {s t : State} (h : exec i s = .next t) :
    ∃ m c e f n, t = { s with mem := m, ctx := c, err := e, fault := f, freeCtr := n, pending := none, raced := false } := by
  obtain ⟨p, -, ⟨-, rfl⟩ | ⟨-, -, rfl⟩ | ⟨-, -, rfl⟩⟩ := exec_cases h
  · exact ⟨_, _, _, _, _, rfl⟩
  · obtain ⟨m, c, h1⟩ := bodyOf_eq i p s
    obtain ⟨m', rk, iv, scr, n, h2⟩ := settleRace_eq i p (bodyOf i p s)
    rw [h2, h1]
    exact ⟨_, _, _, _, _, rfl⟩
  · obtain ⟨m, c, n, h1⟩ := takeBusFault_eq i p s
    obtain ⟨m', rk, iv, scr, n', h2⟩ := settleRace_eq i p (takeBusFault i p s)
    rw [h2, h1]
    exact ⟨_, _, _, _, _, rfl⟩

/-! ### Data memory under the block loops -/

/-- A block inside a buffer of L bytes, L a multiple of 16 or not, ends inside it. -/
theorem block_in_buffer {l j : Nat} (h : j < l / 16) : 16 * j + 16 ≤ l := by omega

theorem xorBytes_length (d t : List Byte) : (xorBytes d t).length = min d.length t.length := by
  simp [xorBytes]

/-- A chunk stores m bytes, all of them inside the buffer (R281). -/
theorem chunk_length (m : Memory) (a l j : Nat) (b : Block) :
    (xorBytes (m.readBytes (a + 16 * j) (min 16 (l - 16 * j))) (b.toList.take (min 16 (l - 16 * j)))).length =
      min 16 (l - 16 * j) := by
  rw [xorBytes_length, Memory.readBytes_length, List.length_take, Block.toList_length]
  omega

/-- A body leaves every byte outside the command's written regions as it was. -/
theorem bodyOf_read_outside {i : Instr} {p : Pending} {s : State} {a : Nat}
    (h : ∀ r ∈ regions i p, r.written = true → r.holds a = false) : (bodyOf i p s).mem.read a = s.mem.read a := by
  have one : ∀ {len : Nat}, (⟨p.a.toNat, len, true, true⟩ : Region).holds a = false →
      a < p.a.toNat ∨ p.a.toNat + len ≤ a := by
    intro len hh
    simp only [Region.holds, decide_eq_false_iff_not] at hh
    omega
  cases i
  case getIv =>
    have := h _ (List.mem_singleton.mpr rfl) rfl
    simp only [Region.holds, decide_eq_false_iff_not] at this
    exact Memory.read_writeBlock_outside (by omega)
  case ecbEnc => exact Memory.read_writeBlock_outside (one (h _ (List.mem_singleton.mpr rfl) rfl))
  case ecbDec => exact Memory.read_writeBlock_outside (one (h _ (List.mem_singleton.mpr rfl) rfl))
  case cbcEnc =>
    have ho := one (h _ (List.mem_singleton.mpr rfl) rfl)
    refine forBlocks_induct (P := fun r : Run => r.mem.read a = s.mem.read a) rfl fun k r _ hk hr => ?_
    have := block_in_buffer (l := p.l.toNat) (j := k) (by omega)
    exact (Memory.read_writeBlock_outside (by omega)).trans hr
  case cbcDec =>
    have ho := one (h _ (List.mem_singleton.mpr rfl) rfl)
    refine forBlocks_induct (P := fun r : Run => r.mem.read a = s.mem.read a) rfl fun k r _ hk hr => ?_
    have := block_in_buffer (l := p.l.toNat) (j := k) (by omega)
    exact (Memory.read_writeBlock_outside (by omega)).trans hr
  case ctrXcrypt =>
    have ho := one (h _ (List.mem_singleton.mpr rfl) rfl)
    refine forBlocks_induct (P := fun r : Run => r.mem.read a = s.mem.read a) rfl fun k r _ hk hr => ?_
    refine (Memory.read_writeBytes_outside ?_).trans hr
    rw [chunk_length]
    omega
  all_goals rfl

/-- A body keeps memory's canonical form when the checks pass. -/
theorem bodyOf_wf {i : Instr} {p : Pending} {s : State} (hc : check i p s.ctx.kv = .ok) (hm : s.mem.wf = true) :
    (bodyOf i p s).mem.wf = true := by
  have hr := inRange_of_check_ok hc
  cases i
  case getIv => exact Memory.writeBlock_wf hm (hr _ (List.mem_singleton.mpr rfl) (Nat.succ_pos 15))
  case ecbEnc => exact Memory.writeBlock_wf hm (hr _ (List.mem_singleton.mpr rfl) (Nat.succ_pos 15))
  case ecbDec => exact Memory.writeBlock_wf hm (hr _ (List.mem_singleton.mpr rfl) (Nat.succ_pos 15))
  case cbcEnc =>
    have ho : 0 < p.l.toNat → _ := hr _ (List.mem_singleton.mpr rfl)
    refine forBlocks_induct (P := fun r : Run => r.mem.wf = true) hm fun k r _ hk hw => ?_
    have := block_in_buffer (l := p.l.toNat) (j := k) (by omega)
    have := ho (by omega)
    dsimp only at this
    exact Memory.writeBlock_wf hw (by omega)
  case cbcDec =>
    have ho : 0 < p.l.toNat → _ := hr _ (List.mem_singleton.mpr rfl)
    refine forBlocks_induct (P := fun r : Run => r.mem.wf = true) hm fun k r _ hk hw => ?_
    have := block_in_buffer (l := p.l.toNat) (j := k) (by omega)
    have := ho (by omega)
    dsimp only at this
    exact Memory.writeBlock_wf hw (by omega)
  case ctrXcrypt =>
    have ho : 0 < p.l.toNat → _ := hr _ (List.mem_singleton.mpr rfl)
    refine forBlocks_induct (P := fun r : Run => r.mem.wf = true) hm fun k r _ hk hw => ?_
    have := ho (by omega)
    dsimp only at this
    refine Memory.writeBytes_wf hw ?_
    rw [chunk_length]
    omega
  all_goals exact hm

end Sys2Proof.Machine
end

