-- ==== Sys2Proof/Laws/PerInstr.lean ====
section
/-! SUPPORT. Statements made per command, one lemma per constructor: its encoding is well-formed and decodes back to it, at
the command word the spec gives it (R105). -/

namespace Sys2Proof.Laws.Encoding

/-- The command word that R105 and opcode_table.json list for a command. -/
def tableWord : Instr → Reg32
  | .initKeyAes128 => 0x11
  | .initKeyAes192 => 0x21
  | .initKeyAes256 => 0x31
  | .initKeyIvAes128 => 0x12
  | .initKeyIvAes192 => 0x22
  | .initKeyIvAes256 => 0x32
  | .setIv => 0x03
  | .getIv => 0x04
  | .ecbEnc => 0x05
  | .ecbDec => 0x06
  | .cbcEnc => 0x07
  | .cbcDec => 0x08
  | .ctrXcrypt => 0x09
  | .clear => 0x0A

/-- The command is well-formed, its word is the table's, and that word decodes to it. -/
def Statement (i : Instr) : Prop := i.WellFormed ∧ encode i = tableWord i ∧ decode (tableWord i) = .ok i

theorem initKeyAes128 : Statement .initKeyAes128 := ⟨by decide, by decide, rfl⟩
theorem initKeyAes192 : Statement .initKeyAes192 := ⟨by decide, by decide, rfl⟩
theorem initKeyAes256 : Statement .initKeyAes256 := ⟨by decide, by decide, rfl⟩
theorem initKeyIvAes128 : Statement .initKeyIvAes128 := ⟨by decide, by decide, rfl⟩
theorem initKeyIvAes192 : Statement .initKeyIvAes192 := ⟨by decide, by decide, rfl⟩
theorem initKeyIvAes256 : Statement .initKeyIvAes256 := ⟨by decide, by decide, rfl⟩
theorem setIv : Statement .setIv := ⟨by decide, by decide, rfl⟩
theorem getIv : Statement .getIv := ⟨by decide, by decide, rfl⟩
theorem ecbEnc : Statement .ecbEnc := ⟨by decide, by decide, rfl⟩
theorem ecbDec : Statement .ecbDec := ⟨by decide, by decide, rfl⟩
theorem cbcEnc : Statement .cbcEnc := ⟨by decide, by decide, rfl⟩
theorem cbcDec : Statement .cbcDec := ⟨by decide, by decide, rfl⟩
theorem ctrXcrypt : Statement .ctrXcrypt := ⟨by decide, by decide, rfl⟩
theorem clear : Statement .clear := ⟨by decide, by decide, rfl⟩

end Sys2Proof.Laws.Encoding
end

