-- ==== Sys2Proof/Tests/Slice0.lean ====
section
/-! SUPPORT. The model's own tests, each about one operation or one step, with expected values from spec/ (mostly
95_test_vectors.md, cited by row); and, for every statement that has hypotheses, a witness that meets them. -/

namespace Sys2Proof.Tests

open Sys2Proof Sys2Proof.Machine

/-! ### Helpers -/

/-- A block written as a number, byte 0 first. -/
def hexBlock (n : Nat) : Block := .ofFn fun k => BitVec.ofNat 8 (n >>> (8 * (15 - k)))

/-- A word written as a number, byte 0 first. -/
def hexWord (n : Nat) : Word := .ofFn fun k => BitVec.ofNat 8 (n >>> (8 * (3 - k)))

/-- The bytes 00, 01, 02, …: the key of 95_test_vectors.md V1.1 and V1.4, and the data of its section 2.8. -/
def counting (n : Nat) : List Byte := (List.range n).map (BitVec.ofNat 8)

/-- The SP 800-38A key of 95_test_vectors.md V1.7. -/
def spKey : List Byte := (hexBlock 0x2b7e151628aed2a6abf7158809cf4f3c).toList

/-- A memory with one block in it. -/
def blockAt (a : Nat) (n : Nat) : Memory := Memory.writeBlock [] a (hexBlock n)

/-- The state after reset, with a context and memory, and a command pending. -/
def running (ctx : Ctx) (mem : Memory) (p : Pending) : State :=
  { State.reset with ctx := ctx, mem := mem, pending := some p }

/-- A context with the schedule of a key, and an IV. -/
def keyed (v : Variant) (key : List Byte) (iv : Nat) : Ctx := ⟨some v, .ofBytes (keyExpansion key v), hexBlock iv, .zero⟩

/-- A context with a key variant and nothing else: enough where no block is transformed. -/
def bare (kv : Option Variant) : Ctx := { Ctx.reset with kv := kv }

/-- The outcome is a next state, and that state passes the check. -/
def answers (o : Host.Outcome State Fault Refusal) (check : State → Bool) : Bool :=
  match o with
  | .next t => check t
  | .fault _ => false
  | .refused _ => false

/-! ### Well-formedness: a term each check refuses (R103, R101, R102) -/

theorem test_rsv_refused : Fields.rsvOk ⟨1, 0, 5⟩ = false ∧ ¬ Fields.WellFormed ⟨1, 0, 5⟩ := by decide
theorem test_opcode_refused : Fields.opcodeOk ⟨0, 0, 0⟩ = false ∧ Fields.opcodeOk ⟨0, 0, 11⟩ = false ∧
    ¬ Fields.WellFormed ⟨0, 0, 11⟩ := by decide
theorem test_var_refused : Fields.varOk ⟨0, 0, 1⟩ = false ∧ Fields.varOk ⟨0, 1, 5⟩ = false ∧
    ¬ Fields.WellFormed ⟨0, 0, 1⟩ ∧ ¬ Fields.WellFormed ⟨0, 1, 5⟩ := by decide

/-! ### Decoding: each command's word, bit by bit, RSV VAR OPCODE (R100 to R102) -/

theorem test_decode_initKeyAes128 : decode 0b00000000000000000000000000_01_0001 = .ok .initKeyAes128 := by rfl
theorem test_decode_initKeyAes192 : decode 0b00000000000000000000000000_10_0001 = .ok .initKeyAes192 := by rfl
theorem test_decode_initKeyAes256 : decode 0b00000000000000000000000000_11_0001 = .ok .initKeyAes256 := by rfl
theorem test_decode_initKeyIvAes128 : decode 0b00000000000000000000000000_01_0010 = .ok .initKeyIvAes128 := by rfl
theorem test_decode_initKeyIvAes192 : decode 0b00000000000000000000000000_10_0010 = .ok .initKeyIvAes192 := by rfl
theorem test_decode_initKeyIvAes256 : decode 0b00000000000000000000000000_11_0010 = .ok .initKeyIvAes256 := by rfl
theorem test_decode_setIv : decode 0b00000000000000000000000000_00_0011 = .ok .setIv := by rfl
theorem test_decode_getIv : decode 0b00000000000000000000000000_00_0100 = .ok .getIv := by rfl
theorem test_decode_ecbEnc : decode 0b00000000000000000000000000_00_0101 = .ok .ecbEnc := by rfl
theorem test_decode_ecbDec : decode 0b00000000000000000000000000_00_0110 = .ok .ecbDec := by rfl
theorem test_decode_cbcEnc : decode 0b00000000000000000000000000_00_0111 = .ok .cbcEnc := by rfl
theorem test_decode_cbcDec : decode 0b00000000000000000000000000_00_1000 = .ok .cbcDec := by rfl
theorem test_decode_ctrXcrypt : decode 0b00000000000000000000000000_00_1001 = .ok .ctrXcrypt := by rfl
theorem test_decode_clear : decode 0b00000000000000000000000000_00_1010 = .ok .clear := by rfl

/-- Illegal words (2.9.1 to 2.9.7). -/
theorem test_decode_illegal : decode 0x00 = .error .reservedOpcode ∧ decode 0x0B = .error .reservedOpcode ∧
    decode 0x0F = .error .reservedOpcode ∧ decode 0x01 = .error .variantMissing ∧
    decode 0x15 = .error .variantGiven ∧ decode 0x45 = .error .reservedBits ∧
    decode 0x80000005 = .error .reservedBits := ⟨rfl, rfl, rfl, rfl, rfl, rfl, rfl⟩

theorem test_decodeTableWord : decodeTableWord 32 0x31 = some .initKeyAes256 ∧ decodeTableWord 32 0x0B = none := by decide

/-! ### The field (2.1), the tables (2.2), the schedule (V1.5, 2.3), the round functions (2.4) -/

theorem test_xtime : xtime 0x57 = 0xae ∧ xtime 0xae = 0x47 ∧ xtime 0x80 = 0x1b ∧ xtime 0xff = 0xe5 := by decide
theorem test_gmul : gmul 0x57 0x83 = 0xc1 ∧ gmul 0x57 0x13 = 0xfe ∧ gmul 0x53 0xca = 0x01 ∧ gmul 0xff 0xff = 0x13 := by
  decide
theorem test_multiples : mul02 0xd4 = 0xb3 ∧ mul03 0xbf = 0xda ∧ mul09 0x5d = 0x83 ∧ mul0B 0x30 = 0xcb ∧
    mul0D 0xd4 = 0x53 ∧ mul0E 0xff = 0x8d := by decide
theorem test_sbox : sbox 0x00 = 0x63 ∧ sbox 0x53 = 0xed ∧ sbox 0xc9 = 0xdd ∧ sbox 0xff = 0x16 := by decide +kernel
theorem test_invSbox : invSbox 0x00 = 0x52 ∧ invSbox 0x8d = 0xb4 ∧ invSbox 0x63 = 0x00 ∧ invSbox 0xff = 0x7d := by
  decide +kernel
theorem test_rcon : rcon 1 = 0x01 ∧ rcon 8 = 0x80 ∧ rcon 9 = 0x1b ∧ rcon 10 = 0x36 := by decide
theorem test_rotWord : rotWord (hexWord 0x09cf4f3c) = hexWord 0xcf4f3c09 := by decide
theorem test_subWord : subWord (hexWord 0xcf4f3c09) = hexWord 0x8a84eb01 := by decide +kernel

/-- V1.5, AES128: w[4], w[5] and w[43]. -/
theorem test_schedule128 : (scheduleWords spKey .aes128)[4]? = some (hexWord 0xa0fafe17) ∧
    (scheduleWords spKey .aes128)[5]? = some (hexWord 0x88542cb1) ∧
    (scheduleWords spKey .aes128)[43]? = some (hexWord 0xb6630ca6) := by decide +kernel

/-- 2.3, AES256 with the zero key: the extra SubWord of w[12]. -/
theorem test_schedule256 : (scheduleWords (List.replicate 32 0) .aes256)[12]? = some (hexWord 0xaafbfbfb) := by
  decide +kernel

theorem test_shiftRows : shiftRows (hexBlock 0x000102030405060708090a0b0c0d0e0f) =
    hexBlock 0x00050a0f04090e03080d02070c01060b := by decide
theorem test_invShiftRows : invShiftRows (hexBlock 0x000102030405060708090a0b0c0d0e0f) =
    hexBlock 0x000d0a0704010e0b0805020f0c090603 := by decide
theorem test_mixColumn : mixColumn (hexWord 0xdb135345) = hexWord 0x8e4da1bc ∧
    mixColumn (hexWord 0x2d26314c) = hexWord 0x4d7ebdf8 := by decide
theorem test_invMixColumn : invMixColumn (hexWord 0x9fdc589d) = hexWord 0xf20a225c := by decide
theorem test_subBytes : subBytes (hexBlock 0x000102030405060708090a0b0c0d0e0f) =
    hexBlock 0x637c777bf26b6fc53001672bfed7ab76 := by decide +kernel
theorem test_inc128 : inc128 (hexBlock 0x00ffffffffffffffffffffffffffffff) = hexBlock 0x01000000000000000000000000000000 ∧
    inc128 (hexBlock 0xffffffffffffffffffffffffffffffff) = .zero ∧
    inc128 (hexBlock 0xf0f1f2f3f4f5f6f7f8f9fafbfcfdfeff) = hexBlock 0xf0f1f2f3f4f5f6f7f8f9fafbfcfdff00 := by decide

/-! ### One step per command -/

/-- 2.5.1. -/
theorem test_initKeyAes128 : answers (step (running .reset (Memory.writeBytes [] 0x100 (counting 16)) ⟨0x11, 0x100, 0, 16⟩))
    (fun t => statusWord t == 0x100 && t.ctx.rk.roundKey 10 == hexBlock 0x13111d7fe3944a17f307a78b4d2b30c5 &&
      t.ctx.rk.roundKey 11 == .zero && t.ctx.iv == .zero) = true := by decide +kernel

/-- 2.5.2. -/
theorem test_initKeyAes192 : answers (step (running .reset (Memory.writeBytes [] 0x100 (counting 24)) ⟨0x21, 0x100, 0, 24⟩))
    (fun t => statusWord t == 0x200 && t.ctx.rk.roundKey 12 == hexBlock 0xa4970a331a78dc09c418c271e3a41d5d &&
      t.ctx.rk.roundKey 13 == .zero) = true := by decide +kernel

/-- 2.5.3. -/
theorem test_initKeyAes256 : answers (step (running .reset (Memory.writeBytes [] 0x100 (counting 32)) ⟨0x31, 0x100, 0, 32⟩))
    (fun t => statusWord t == 0x300 && t.ctx.rk.roundKey 14 == hexBlock 0x24fc79ccbf0979e9371ac23c6d68de36) = true := by
  decide +kernel

/-- 2.5.4, with the IV's bytes at 0x180. -/
theorem test_initKeyIvAes128 : answers (step (running .reset
    (Memory.writeBytes (blockAt 0x180 0x000102030405060708090a0b0c0d0e0f) 0x100 (counting 16)) ⟨0x12, 0x100, 0x180, 16⟩))
    (fun t => statusWord t == 0x100 && t.ctx.iv == hexBlock 0x000102030405060708090a0b0c0d0e0f &&
      t.ctx.rk.roundKey 10 == hexBlock 0x13111d7fe3944a17f307a78b4d2b30c5) = true := by decide +kernel

/-- 2.9.12's wrong length, on the word 0x22 (R306). -/
theorem test_initKeyIvAes192 : answers (step (running .reset [] ⟨0x22, 0x100, 0x180, 16⟩))
    (fun t => statusWord t == 0x10) = true := by decide +kernel

/-- 2.9.13's wrong length, on the word 0x32 (R306). -/
theorem test_initKeyIvAes256 : answers (step (running .reset [] ⟨0x32, 0x100, 0x180, 24⟩))
    (fun t => statusWord t == 0x10) = true := by decide +kernel

/-- 2.5.6. -/
theorem test_setIv : answers (step (running .reset (blockAt 0x180 0x000102030405060708090a0b0c0d0e0f) ⟨0x03, 0x180, 0, 0⟩))
    (fun t => statusWord t == 0 && t.ctx.iv == hexBlock 0x000102030405060708090a0b0c0d0e0f) = true := by decide +kernel

/-- 2.5.7. -/
theorem test_getIv : answers (step (running { Ctx.reset with iv := hexBlock 0x000102030405060708090a0b0c0d0e0f } []
    ⟨0x04, 0x300, 0, 0⟩))
    (fun t => statusWord t == 0 && t.mem.readBlock 0x300 == hexBlock 0x000102030405060708090a0b0c0d0e0f) = true := by
  decide +kernel

/-- 2.5.8 and 2.9.28: CLEAR takes no operand. -/
theorem test_clear : answers (step (running (keyed .aes128 (counting 16) 1) [] ⟨0x0A, 0xFFFFFFFF, 0xFFFFFFFF, 0xFFFFFFFF⟩))
    (fun t => statusWord t == 0 && t.ctx == .reset) = true := by decide +kernel

/-- 2.6.1 (V1.1), with B and L that ECB ignores. -/
theorem test_ecbEnc : answers (step (running (keyed .aes128 (counting 16) 0)
    (blockAt 0x200 0x00112233445566778899aabbccddeeff) ⟨0x05, 0x200, 0xDEADBEEF, 0x12345⟩))
    (fun t => statusWord t == 0x100 && t.mem.readBlock 0x200 == hexBlock 0x69c4e0d86a7b0430d8cdb78070b4c55a) = true := by
  decide +kernel

/-- 2.6.5 (V1.4, AES256), at the top of memory as in 2.6.7. -/
theorem test_ecbEnc256 : answers (step (running (keyed .aes256 (counting 32) 0)
    (blockAt 0xFFFFFFF0 0x00112233445566778899aabbccddeeff) ⟨0x05, 0xFFFFFFF0, 0, 0⟩))
    (fun t => statusWord t == 0x300 && t.mem.readBlock 0xFFFFFFF0 == hexBlock 0x8ea2b7ca516745bfeafc49904b496089) = true := by
  decide +kernel

/-- 2.6.4 (V1.4, AES192). -/
theorem test_ecbDec : answers (step (running (keyed .aes192 (counting 24) 0)
    (blockAt 0x200 0xdda97ca4864cdfe06eaf70a0ec0d7191) ⟨0x06, 0x200, 0, 0⟩))
    (fun t => statusWord t == 0x200 && t.mem.readBlock 0x200 == hexBlock 0x00112233445566778899aabbccddeeff) = true := by
  decide +kernel

/-- 2.7.2: two chained blocks. -/
theorem test_cbcEnc : answers (step (running (keyed .aes128 spKey 0x000102030405060708090a0b0c0d0e0f)
    (Memory.writeBlock (blockAt 0x200 0x6bc1bee22e409f96e93d7e117393172a) 0x210 (hexBlock 0xae2d8a571e03ac9c9eb76fac45af8e51))
    ⟨0x07, 0x200, 0, 32⟩))
    (fun t => statusWord t == 0x100 && t.mem.readBlock 0x200 == hexBlock 0x7649abac8119b246cee98e9b12e9197d &&
      t.mem.readBlock 0x210 == hexBlock 0x5086cb9b507219ee95db113a917678b2 &&
      t.ctx.iv == hexBlock 0x5086cb9b507219ee95db113a917678b2) = true := by decide +kernel

/-- V1.7: the first two ciphertext blocks; IV and SCR end as the second (C3). -/
theorem test_cbcDec : answers (step (running (keyed .aes128 spKey 0x000102030405060708090a0b0c0d0e0f)
    (Memory.writeBlock (blockAt 0x200 0x7649abac8119b246cee98e9b12e9197d) 0x210 (hexBlock 0x5086cb9b507219ee95db113a917678b2))
    ⟨0x08, 0x200, 0, 32⟩))
    (fun t => statusWord t == 0x100 && t.mem.readBlock 0x200 == hexBlock 0x6bc1bee22e409f96e93d7e117393172a &&
      t.mem.readBlock 0x210 == hexBlock 0xae2d8a571e03ac9c9eb76fac45af8e51 &&
      t.ctx.iv == hexBlock 0x5086cb9b507219ee95db113a917678b2 &&
      t.ctx.scr == hexBlock 0x5086cb9b507219ee95db113a917678b2) = true := by decide +kernel

/-- 2.8.2.5: 17 bytes, one byte of the second keystream block. -/
theorem test_ctrXcrypt : answers (step (running (keyed .aes128 spKey 0) (Memory.writeBytes [] 0x200 (counting 18))
    ⟨0x09, 0x200, 0, 17⟩))
    (fun t => statusWord t == 0x100 && t.mem.readBlock 0x200 == hexBlock 0x7df6690f1ebd9fb4364bfa4cb5165a60 &&
      t.mem.read 0x210 == 0x47 && t.mem.read 0x211 == 17 && t.ctx.iv == hexBlock 2) = true := by decide +kernel

/-- 2.9.22: an empty buffer passes every check wherever it stands, and changes nothing. -/
theorem test_ctrXcrypt_empty : answers (step (running (bare (some .aes128)) [] ⟨0x09, 0xFFFFFFFF, 0, 0⟩))
    (fun t => statusWord t == 0x100 && t.ctx == bare (some .aes128) && t.mem == []) = true := by decide +kernel

/-! ### Errors: precedence (2.9.15 to 2.9.27) -/

theorem test_precedence_illegal : answers (step (running (bare none) [] ⟨0x15, 0xFFFFFFFF, 0, 0x11⟩))
    (fun t => statusWord t == 0x40) = true := by decide +kernel
theorem test_precedence_uninitialized : answers (step (running (bare none) [] ⟨0x07, 0xFFFFFFFF, 0, 0x11⟩))
    (fun t => statusWord t == 0x30) = true := by decide +kernel
theorem test_precedence_keyLength : answers (step (running (bare none) [] ⟨0x11, 0xFFFFFFFF, 0, 0x11⟩))
    (fun t => statusWord t == 0x10) = true := by decide +kernel
theorem test_precedence_bufferLength : answers (step (running (bare (some .aes128)) [] ⟨0x07, 0xFFFFFFF0, 0, 0x11⟩))
    (fun t => statusWord t == 0x120) = true := by decide +kernel
theorem test_range : answers (step (running (bare (some .aes128)) [] ⟨0x09, 0xFFFFFF00, 0, 0x101⟩))
    (fun t => statusWord t == 0x150) = true := by decide +kernel

/-! ### The host: CMD while BUSY (P6), the pseudo-instructions (P1), placing a command -/

theorem test_cmd_dropped : answers (hostStep (.regWrite 0 .word 0x06) (running (bare (some .aes128)) [] ⟨0x05, 0x200, 0, 0⟩))
    (fun t => statusWord t == 0x103 && t.pending == some ⟨0x05, 0x200, 0, 0⟩) = true := by decide +kernel

theorem test_pseudo_initKey : (Pseudo.initKey .aes128 0x100 16).expand 0x40 =
    [.host (.regWrite 0x44 .word 0x100), .host (.regWrite 0x4C .word 16), .host (.regWrite 0x40 .word 0x11),
     .host .wait] := by decide

theorem test_withFetchWord : answers (step (State.reset.withFetchWord 32 0x05))
    (fun t => statusWord t == 0x30 && t.schedule == []) = true := by decide +kernel

/-! ### Witnesses: for each statement with hypotheses, states and operands that meet them -/

theorem witness_DecodeEncodeRoundTrip : decode 0x11 = .ok .initKeyAes128 := rfl

theorem witness_LegalWordsAreTheFourteen :
    (running (bare none) [] ⟨0x45, 0, 0, 0⟩).pending = some ⟨0x45, 0, 0, 0⟩ ∧ ¬ ∃ i, decode 0x45 = .ok i :=
  ⟨rfl, fun ⟨_, h⟩ => by cases h⟩

theorem witness_StepRunsPendingCommand :
    (running (bare none) [] ⟨0x0A, 0, 0, 0⟩).pending = some ⟨0x0A, 0, 0, 0⟩ ∧ decode 0x0A = .ok .clear ∧
    (running (bare none) [] ⟨0x0A, 0, 0, 0⟩).schedule = [] ∧
    { running (bare none) [] ⟨0x0A, 0, 0, 0⟩ with schedule := [.core, .host .reset] }.schedule = .core :: [.host .reset] ∧
    (running (bare none) [] ⟨0x15, 0, 0, 0⟩).pending = some ⟨0x15, 0, 0, 0⟩ ∧ decode 0x15 = .error .variantGiven :=
  ⟨rfl, rfl, rfl, rfl, rfl, rfl⟩

theorem witness_IdleCoreKeepsEverything : State.reset.pending = none ∧ State.reset.schedule = [] ∧
    { State.reset with schedule := [.core] }.schedule = .core :: [] ∧
    { State.reset with schedule := [.host .wait] }.schedule = .host .wait :: [] := ⟨rfl, rfl, rfl, rfl⟩

theorem witness_CompletionClearsBusy : ∃ t, exec .clear (running (bare none) [] ⟨0x0A, 0, 0, 0⟩) = .next t := ⟨_, rfl⟩

/-- One word per clause: RSV by its lowest and highest bit, opcodes 0x0, 0xB and 0xF, VAR missing, VAR given. -/
theorem witness_IllegalWordReportsCodeFour : (fieldsOf 0x45).rsv ≠ 0 ∧ (fieldsOf 0x80000005).rsv ≠ 0 ∧
    (fieldsOf 0x00).opcode = 0 ∧ 11 ≤ (fieldsOf 0x0B).opcode.toNat ∧ 11 ≤ (fieldsOf 0x0F).opcode.toNat ∧
    ((fieldsOf 0x01).opcode ∈ [1#4, 2#4] ∧ (fieldsOf 0x01).var = 0) ∧
    ((fieldsOf 0x1A).opcode ∉ [1#4, 2#4] ∧ (fieldsOf 0x1A).var ≠ 0) ∧
    (running (bare none) [] ⟨0x45, 0, 0, 0⟩).pending = some ⟨0x45, 0, 0, 0⟩ := by decide

theorem witness_IllegalWordReportsCodeFour_next :
    ∃ t, exec .clear (running (bare none) [] ⟨0x0A, 0, 0, 0⟩) = .next t := ⟨_, rfl⟩

theorem witness_ModeCommandNeedsKey :
    ((running (bare none) [] ⟨0x05, 0x200, 0, 0⟩).pending = some ⟨0x05, 0x200, 0, 0⟩ ∧
      (running (bare none) [] ⟨0x05, 0x200, 0, 0⟩).ctx.kv = none ∧
      Instr.ecbEnc ∈ [Instr.ecbEnc, .ecbDec, .cbcEnc, .cbcDec, .ctrXcrypt]) ∧
    ∃ t, exec .ecbEnc (running (bare none) [] ⟨0x05, 0x200, 0, 0⟩) = .next t ∧ t.err = .uninitializedContext :=
  ⟨by decide, _, rfl, rfl⟩

/-- L one short and one long. -/
theorem witness_KeyLengthMustMatchVariant :
    (Instr.initKeyAes128, 16) ∈ [(Instr.initKeyAes128, 16), (.initKeyAes192, 24), (.initKeyAes256, 32),
      (.initKeyIvAes128, 16), (.initKeyIvAes192, 24), (.initKeyIvAes256, 32)] ∧
    (running (bare none) [] ⟨0x11, 0x100, 0, 15⟩).pending = some ⟨0x11, 0x100, 0, 15⟩ ∧ (15#32).toNat ≠ 16 ∧
    (running (bare none) [] ⟨0x11, 0x100, 0, 17⟩).pending = some ⟨0x11, 0x100, 0, 17⟩ ∧ (17#32).toNat ≠ 16 := by decide

theorem witness_KeyLengthMustMatchVariant_next :
    ∃ t, exec .initKeyAes192 (running (bare none) [] ⟨0x21, 0x100, 0, 16⟩) = .next t ∧ t.err = .invalidKeyLength :=
  ⟨_, rfl, rfl⟩

theorem witness_CbcLengthMustBeMultipleOf16 :
    (Instr.cbcEnc ∈ [Instr.cbcEnc, .cbcDec] ∧
      (running (bare (some .aes128)) [] ⟨0x07, 0x200, 0, 17⟩).pending = some ⟨0x07, 0x200, 0, 17⟩ ∧
      (running (bare (some .aes128)) [] ⟨0x07, 0x200, 0, 17⟩).ctx.kv ≠ none ∧ (17#32).toNat % 16 ≠ 0 ∧
      (15#32).toNat % 16 ≠ 0) ∧
    ∃ t, exec .cbcDec (running (bare (some .aes128)) [] ⟨0x08, 0x200, 0, 8⟩) = .next t ∧ t.err = .invalidBufferLength :=
  ⟨by decide, _, rfl, rfl⟩

/-- The lowest address past which each region runs over the end of memory. -/
theorem witness_RegionPastEndReportsRange :
    ((16#32).toNat = 16 ∧ (0xFFFFFFF1#32).toNat + 16 > 2 ^ 32 ∧ ¬ (0xFFFFFFF0#32).toNat + 16 > 2 ^ 32) ∧
    ((running (bare none) [] ⟨0x12, 0x100, 0xFFFFFFF1, 16⟩).pending = some ⟨0x12, 0x100, 0xFFFFFFF1, 16⟩) ∧
    ((running (bare none) [] ⟨0x03, 0xFFFFFFF1, 0, 0⟩).pending = some ⟨0x03, 0xFFFFFFF1, 0, 0⟩) ∧
    ((running (bare (some .aes128)) [] ⟨0x05, 0xFFFFFFF1, 0, 0⟩).pending = some ⟨0x05, 0xFFFFFFF1, 0, 0⟩ ∧
      (running (bare (some .aes128)) [] ⟨0x05, 0xFFFFFFF1, 0, 0⟩).ctx.kv ≠ none) ∧
    ((running (bare (some .aes128)) [] ⟨0x07, 0xFFFFFFF1, 0, 16⟩).pending = some ⟨0x07, 0xFFFFFFF1, 0, 16⟩ ∧
      (running (bare (some .aes128)) [] ⟨0x07, 0xFFFFFFF1, 0, 16⟩).ctx.kv ≠ none ∧ (16#32).toNat % 16 = 0 ∧
      0 < (16#32).toNat) ∧
    ((running (bare (some .aes128)) [] ⟨0x09, 0xFFFFFFFF, 0, 2⟩).pending = some ⟨0x09, 0xFFFFFFFF, 0, 2⟩ ∧
      (running (bare (some .aes128)) [] ⟨0x09, 0xFFFFFFFF, 0, 2⟩).ctx.kv ≠ none ∧
      0 < (2#32).toNat ∧ (0xFFFFFFFF#32).toNat + (2#32).toNat > 2 ^ 32) := by decide

theorem witness_RegionPastEndReportsRange_next :
    ∃ t, exec .getIv (running (bare none) [] ⟨0x04, 0xFFFFFFFF, 0, 0⟩) = .next t ∧ t.err = .addressRange := ⟨_, rfl, rfl⟩

theorem witness_CheckedErrorHasNoOtherEffect :
    ∃ t, exec .ecbEnc (running (bare none) [] ⟨0x05, 0x200, 0, 0⟩) = .next t ∧ t.err ≠ .ok ∧ t.err ≠ .busFault :=
  ⟨_, rfl, by decide, by decide⟩

/-- A state whose platform does not answer at the one address x. -/
def silentAt (x : Nat) (kv : Option Variant) (p : Pending) : State :=
  { running (bare kv) [] p with platform := ⟨0, [⟨x, x + 1, .unanswered⟩]⟩ }

/-- Every hypothesis about a bus fault holds there: the checks pass, an address of a region is unanswered, none maps a
device. -/
abbrev SilentWitness (x : Nat) (i : Instr) (kv : Option Variant) (p : Pending) : Prop :=
  (silentAt x kv p).Runs p ∧ check i p (silentAt x kv p).ctx.kv = .ok ∧
  (∃ r ∈ regions i p, ∃ k, k < r.len ∧ (silentAt x kv p).platform.memOK (r.base + k) = false) ∧
  (∀ r ∈ regions i p, ∀ k, k < r.len → (silentAt x kv p).platform.kindAt (r.base + k) ≠ .device) ∧
  (silentAt x kv p).fault = none

/-- The bus fault of section 2.9, at 0x205 in an ECB_ENC, and one in the second region of an INIT_KEY_IV. -/
theorem witness_BusFaultReportsCodeSix : SilentWitness 0x205 .ecbEnc (some .aes128) ⟨0x05, 0x200, 0, 0⟩ ∧
    SilentWitness 0x18F .initKeyIvAes128 none ⟨0x12, 0x100, 0x180, 16⟩ := by decide

/-- The bus fault of section 2.9 reports STATUS = 0x160 and sets the mark. -/
theorem test_busFault : answers (step (silentAt 0x205 (some .aes128) ⟨0x05, 0x200, 0, 0⟩))
    (fun t => statusWord t == 0x160 && t.fault == some .busFault) = true := by decide +kernel

/-- The first and the last byte of a region of each other command. -/
theorem witness_busFaults : SilentWitness 0x100 .initKeyAes256 none ⟨0x31, 0x100, 0, 32⟩ ∧
    SilentWitness 0x18F .setIv none ⟨0x03, 0x180, 0, 0⟩ ∧ SilentWitness 0x300 .getIv none ⟨0x04, 0x300, 0, 0⟩ ∧
    SilentWitness 0x20F .ecbDec (some .aes192) ⟨0x06, 0x200, 0, 0⟩ ∧
    SilentWitness 0x21F .cbcEnc (some .aes128) ⟨0x07, 0x200, 0, 32⟩ ∧
    SilentWitness 0x200 .cbcDec (some .aes128) ⟨0x08, 0x200, 0, 32⟩ ∧
    SilentWitness 0x210 .ctrXcrypt (some .aes128) ⟨0x09, 0x200, 0, 17⟩ := by decide

/-- A device at the last byte of an ECB block, and the host's own accesses to it, to an unanswered address, and just past the
window and at the last word of the bus. -/
def deviceAt20F : State :=
  { running (bare (some .aes128)) [] ⟨0x05, 0x200, 0, 0⟩ with
    platform := ⟨0, [⟨0x20F, 0x210, .device⟩, ⟨0x300, 0x301, .unanswered⟩]⟩ }

theorem witness_StopsAreNamed : deviceAt20F.pending = some ⟨0x05, 0x200, 0, 0⟩ ∧
    check .ecbEnc ⟨0x05, 0x200, 0, 0⟩ deviceAt20F.ctx.kv = .ok ∧
    (∃ r ∈ regions .ecbEnc ⟨0x05, 0x200, 0, 0⟩, ∃ k, k < r.len ∧ deviceAt20F.platform.kindAt (r.base + k) = .device) ∧
    (∀ r ∈ regions .ecbEnc ⟨0x05, 0x200, 0, 0⟩, ∀ k, k < r.len → deviceAt20F.platform.memOK (r.base + k) = true) ∧
    deviceAt20F.platform.kindAt (0x20F#32).toNat = .device ∧ deviceAt20F.platform.kindAt (0x300#32).toNat = .unanswered ∧
    inPendingRegion deviceAt20F (0x300#32).toNat = false ∧
    32 ≤ (0x20#32 - deviceAt20F.platform.aesBase).toNat ∧
    (0xFFFFFFFC#32 - deviceAt20F.platform.aesBase).toNat + AccessSize.word.bytes ≤ 2 ^ 32 ∧
    (0xFFFFFFF8#32 - deviceAt20F.platform.aesBase).toNat + (AccessSize.wide 3).bytes ≤ 2 ^ 32 ∧ State.reset.pending = none := by decide

/-- A wrong length; the first address out of range; the last address in range. -/
theorem witness_InitKeyEstablishesSchedule :
    (Instr.initKeyAes128, Variant.aes128, 16, 10) ∈ [(Instr.initKeyAes128, Variant.aes128, 16, 10),
      (.initKeyAes192, .aes192, 24, 12), (.initKeyAes256, .aes256, 32, 14)] ∧
    ((running .reset [] ⟨0x11, 0x100, 0, 17⟩).Runs ⟨0x11, 0x100, 0, 17⟩ ∧ (17#32).toNat ≠ 16) ∧
    ((running .reset [] ⟨0x11, 0xFFFFFFF1, 0, 16⟩).Runs ⟨0x11, 0xFFFFFFF1, 0, 16⟩ ∧
      (0xFFFFFFF1#32).toNat + 16 > 2 ^ 32) ∧
    ((running .reset [] ⟨0x11, 0xFFFFFFF0, 0, 16⟩).Runs ⟨0x11, 0xFFFFFFF0, 0, 16⟩ ∧
      (16#32).toNat = 16 ∧ (0xFFFFFFF0#32).toNat + 16 ≤ 2 ^ 32 ∧
      PlainFrom (running .reset [] ⟨0x11, 0xFFFFFFF0, 0, 16⟩) (0xFFFFFFF0#32).toNat 16) := by decide

theorem witness_InitKeyIvEstablishesScheduleAndIv :
    (Instr.initKeyIvAes128, Variant.aes128, 16, 10) ∈ [(Instr.initKeyIvAes128, Variant.aes128, 16, 10),
      (.initKeyIvAes192, .aes192, 24, 12), (.initKeyIvAes256, .aes256, 32, 14)] ∧
    ((running .reset [] ⟨0x12, 0x100, 0x180, 15⟩).Runs ⟨0x12, 0x100, 0x180, 15⟩ ∧ (15#32).toNat ≠ 16) ∧
    ((running .reset [] ⟨0x12, 0x100, 0xFFFFFFF1, 16⟩).Runs ⟨0x12, 0x100, 0xFFFFFFF1, 16⟩ ∧
      (0xFFFFFFF1#32).toNat + 16 > 2 ^ 32) ∧
    ((running .reset [] ⟨0x12, 0x100, 0xFFFFFFF0, 16⟩).Runs ⟨0x12, 0x100, 0xFFFFFFF0, 16⟩ ∧
      (0x100#32).toNat + 16 ≤ 2 ^ 32 ∧ (0xFFFFFFF0#32).toNat + 16 ≤ 2 ^ 32 ∧
      PlainFrom (running .reset [] ⟨0x12, 0x100, 0xFFFFFFF0, 16⟩) (0x100#32).toNat 16 ∧
      PlainFrom (running .reset [] ⟨0x12, 0x100, 0xFFFFFFF0, 16⟩) (0xFFFFFFF0#32).toNat 16) := by decide

/-- SET_IV, GET_IV: the first address out of range, the last in range. -/
theorem witness_SetIvReadsIv : (running .reset [] ⟨0x03, 0xFFFFFFF1, 0, 0⟩).Runs ⟨0x03, 0xFFFFFFF1, 0, 0⟩ ∧
    (0xFFFFFFF1#32).toNat + 16 > 2 ^ 32 ∧
    (running .reset [] ⟨0x03, 0xFFFFFFF0, 0, 0⟩).Runs ⟨0x03, 0xFFFFFFF0, 0, 0⟩ ∧
    (0xFFFFFFF0#32).toNat + 16 ≤ 2 ^ 32 ∧
    PlainFrom (running .reset [] ⟨0x03, 0xFFFFFFF0, 0, 0⟩) (0xFFFFFFF0#32).toNat 16 := by decide

theorem witness_GetIvWritesIv : (running .reset [] ⟨0x04, 0xFFFFFFF1, 0, 0⟩).Runs ⟨0x04, 0xFFFFFFF1, 0, 0⟩ ∧
    (0xFFFFFFF1#32).toNat + 16 > 2 ^ 32 ∧
    (running .reset [] ⟨0x04, 0xFFFFFFF0, 0, 0⟩).Runs ⟨0x04, 0xFFFFFFF0, 0, 0⟩ ∧
    (0xFFFFFFF0#32).toNat + 16 ≤ 2 ^ 32 ∧
    PlainFrom (running .reset [] ⟨0x04, 0xFFFFFFF0, 0, 0⟩) (0xFFFFFFF0#32).toNat 16 := by decide

theorem witness_ClearWipesContext : (running .reset [] ⟨0x0A, 0, 0, 0⟩).Runs ⟨0x0A, 0, 0, 0⟩ := ⟨rfl, rfl⟩

theorem witness_ClearLeavesResetContext :
    ∃ t, exec .clear (running (bare (some .aes192)) [] ⟨0x0A, 0, 0, 0⟩) = .next t ∧
      (running (bare (some .aes192)) [] ⟨0x0A, 0, 0, 0⟩).raced = false := ⟨_, rfl, rfl⟩

/-- ECB: no key; a key and the first address out of range; a key and the last address in range. -/
theorem witness_EcbEncEncryptsBlock :
    ((running (bare none) [] ⟨0x05, 0x200, 0, 0⟩).Runs ⟨0x05, 0x200, 0, 0⟩ ∧
      (running (bare none) [] ⟨0x05, 0x200, 0, 0⟩).ctx.kv = none) ∧
    ((running (bare (some .aes128)) [] ⟨0x05, 0xFFFFFFF1, 0, 0⟩).Runs ⟨0x05, 0xFFFFFFF1, 0, 0⟩ ∧
      (running (bare (some .aes128)) [] ⟨0x05, 0xFFFFFFF1, 0, 0⟩).ctx.kv ≠ none ∧
      (0xFFFFFFF1#32).toNat + 16 > 2 ^ 32) ∧
    ((running (bare (some .aes128)) [] ⟨0x05, 0xFFFFFFF0, 0, 0⟩).Runs ⟨0x05, 0xFFFFFFF0, 0, 0⟩ ∧
      (running (bare (some .aes128)) [] ⟨0x05, 0xFFFFFFF0, 0, 0⟩).ctx.kv = some .aes128 ∧
      (0xFFFFFFF0#32).toNat + 16 ≤ 2 ^ 32 ∧
      PlainFrom (running (bare (some .aes128)) [] ⟨0x05, 0xFFFFFFF0, 0, 0⟩) (0xFFFFFFF0#32).toNat 16) := by decide

theorem witness_EcbDecDecryptsBlock :
    ((running (bare none) [] ⟨0x06, 0x200, 0, 0⟩).Runs ⟨0x06, 0x200, 0, 0⟩ ∧
      (running (bare none) [] ⟨0x06, 0x200, 0, 0⟩).ctx.kv = none) ∧
    ((running (bare (some .aes128)) [] ⟨0x06, 0xFFFFFFF1, 0, 0⟩).Runs ⟨0x06, 0xFFFFFFF1, 0, 0⟩ ∧
      (running (bare (some .aes128)) [] ⟨0x06, 0xFFFFFFF1, 0, 0⟩).ctx.kv ≠ none ∧
      (0xFFFFFFF1#32).toNat + 16 > 2 ^ 32) ∧
    ((running (bare (some .aes128)) [] ⟨0x06, 0xFFFFFFF0, 0, 0⟩).Runs ⟨0x06, 0xFFFFFFF0, 0, 0⟩ ∧
      (running (bare (some .aes128)) [] ⟨0x06, 0xFFFFFFF0, 0, 0⟩).ctx.kv = some .aes128 ∧
      (0xFFFFFFF0#32).toNat + 16 ≤ 2 ^ 32 ∧
      PlainFrom (running (bare (some .aes128)) [] ⟨0x06, 0xFFFFFFF0, 0, 0⟩) (0xFFFFFFF0#32).toNat 16) := by decide

theorem witness_EcbDecUndoesEcbEnc :
    (running (bare (some .aes256)) [] ⟨0x05, 0xFFFFFFF0, 0, 0⟩).Runs ⟨0x05, 0xFFFFFFF0, 0, 0⟩ ∧
    (⟨0x06, 0xFFFFFFF0, 0, 0⟩ : Pending).a = (⟨0x05, 0xFFFFFFF0, 0, 0⟩ : Pending).a ∧
    (running (bare (some .aes256)) [] ⟨0x05, 0xFFFFFFF0, 0, 0⟩).ctx.kv ≠ none ∧
    (0xFFFFFFF0#32).toNat + 16 ≤ 2 ^ 32 ∧
    PlainFrom (running (bare (some .aes256)) [] ⟨0x05, 0xFFFFFFF0, 0, 0⟩) (0xFFFFFFF0#32).toNat 16 := by decide

/-- A buffer command under each of its clauses: no key; a length that is no multiple of 16 (the CBC commands); out of range
by one block; one block at the very end of memory; an empty buffer at the last address. -/
def BufferWitness (w : Reg32) (l : Reg32) : Prop :=
  ((running (bare none) [] ⟨w, 0x200, 0, 16⟩).Runs ⟨w, 0x200, 0, 16⟩ ∧
    (running (bare none) [] ⟨w, 0x200, 0, 16⟩).ctx.kv = none) ∧
  ((running (bare (some .aes128)) [] ⟨w, 0x200, 0, l⟩).Runs ⟨w, 0x200, 0, l⟩ ∧ l.toNat % 16 ≠ 0 ∧
    (running (bare (some .aes128)) [] ⟨w, 0x200, 0, l⟩).ctx.kv ≠ none) ∧
  ((running (bare (some .aes128)) [] ⟨w, 0xFFFFFFF1, 0, 16⟩).Runs ⟨w, 0xFFFFFFF1, 0, 16⟩ ∧
    (running (bare (some .aes128)) [] ⟨w, 0xFFFFFFF1, 0, 16⟩).ctx.kv ≠ none ∧
    (16#32).toNat % 16 = 0 ∧ 0 < (16#32).toNat ∧ (0xFFFFFFF1#32).toNat + (16#32).toNat > 2 ^ 32) ∧
  ((running (bare (some .aes128)) [] ⟨w, 0xFFFFFFF0, 0, 16⟩).Runs ⟨w, 0xFFFFFFF0, 0, 16⟩ ∧
    (running (bare (some .aes128)) [] ⟨w, 0xFFFFFFF0, 0, 16⟩).ctx.kv = some .aes128 ∧
    (0xFFFFFFF0#32).toNat + (16#32).toNat ≤ 2 ^ 32 ∧
    PlainFrom (running (bare (some .aes128)) [] ⟨w, 0xFFFFFFF0, 0, 16⟩) (0xFFFFFFF0#32).toNat (16#32).toNat) ∧
  ((running (bare (some .aes128)) [] ⟨w, 0xFFFFFFFF, 0, 0⟩).Runs ⟨w, 0xFFFFFFFF, 0, 0⟩ ∧ (0#32).toNat % 16 = 0 ∧
    PlainFrom (running (bare (some .aes128)) [] ⟨w, 0xFFFFFFFF, 0, 0⟩) (0xFFFFFFFF#32).toNat (0#32).toNat)

theorem witness_CbcEncChainsBlocks : BufferWitness 0x07 17 := by unfold BufferWitness; decide
theorem witness_CbcDecChainsBlocks : BufferWitness 0x08 15 := by unfold BufferWitness; decide
theorem witness_CtrXorsKeystream : BufferWitness 0x09 33 := by unfold BufferWitness; decide

/-- Two blocks that end at the end of memory, and one block followed by none. -/
theorem witness_CbcContinuesAcrossCommands :
    Instr.cbcEnc ∈ [Instr.cbcEnc, .cbcDec] ∧ State.reset.raced = false ∧
    { State.reset with ctx := bare (some .aes128) }.ctx.kv ≠ none ∧ (16#32).toNat % 16 = 0 ∧ (0#32).toNat % 16 = 0 ∧
    (0xFFFFFFE0#32).toNat + (16#32).toNat + (16#32).toNat ≤ 2 ^ 32 ∧ (16#32).toNat + (16#32).toNat < 2 ^ 32 ∧
    PlainFrom { State.reset with ctx := bare (some .aes128) } (0xFFFFFFE0#32).toNat ((16#32).toNat + (16#32).toNat) ∧
    (0xFFFFFFF0#32).toNat + (16#32).toNat + (0#32).toNat ≤ 2 ^ 32 ∧ (16#32).toNat + (0#32).toNat < 2 ^ 32 := by decide

theorem witness_CbcDecUndoesCbcEnc :
    (running (bare (some .aes128)) [] ⟨0x07, 0xFFFFFFF0, 0, 16⟩).Runs ⟨0x07, 0xFFFFFFF0, 0, 16⟩ ∧
    (⟨0x08, 0xFFFFFFF0, 0, 16⟩ : Pending).a = 0xFFFFFFF0 ∧ (⟨0x08, 0xFFFFFFF0, 0, 16⟩ : Pending).l = 16 ∧
    (running (bare (some .aes128)) [] ⟨0x07, 0xFFFFFFF0, 0, 16⟩).ctx.kv ≠ none ∧ (16#32).toNat % 16 = 0 ∧
    (0xFFFFFFF0#32).toNat + (16#32).toNat ≤ 2 ^ 32 ∧
    PlainFrom (running (bare (some .aes128)) [] ⟨0x07, 0xFFFFFFF0, 0, 16⟩) (0xFFFFFFF0#32).toNat (16#32).toNat := by decide

theorem witness_Inc128IncrementsBigEndian : (hexBlock 0xFF).toNatBE = (hexBlock 0xFF).toNatBE := rfl

/-- L = 0 takes no block, so that the step is short. -/
theorem witness_CtrAdvancesCounterByChunks :
    (running (bare (some .aes128)) [] ⟨0x09, 0xFFFFFFFF, 0, 0⟩).Runs ⟨0x09, 0xFFFFFFFF, 0, 0⟩ ∧
    ∃ t, exec .ctrXcrypt (running (bare (some .aes128)) [] ⟨0x09, 0xFFFFFFFF, 0, 0⟩) = .next t ∧ t.err = .ok :=
  ⟨⟨rfl, rfl⟩, _, rfl, rfl⟩

theorem witness_CtrUndoesItself :
    (running (bare (some .aes128)) [] ⟨0x09, 0xFFFFFFFE, 0, 2⟩).Runs ⟨0x09, 0xFFFFFFFE, 0, 2⟩ ∧
    (running (bare (some .aes128)) [] ⟨0x09, 0xFFFFFFFE, 0, 2⟩).ctx.kv ≠ none ∧
    (0xFFFFFFFE#32).toNat + (2#32).toNat ≤ 2 ^ 32 ∧
    PlainFrom (running (bare (some .aes128)) [] ⟨0x09, 0xFFFFFFFE, 0, 2⟩) (0xFFFFFFFE#32).toNat (2#32).toNat := by decide

/-- Two schedules that differ in a byte past the round keys of ten rounds. -/
def otherSchedule : Schedule := .ofBytes (List.replicate 176 0 ++ [1])

theorem witness_CipherReadsOnlyItsRoundKeys : Schedule.zero ≠ otherSchedule ∧
    ∀ k, k < 16 * (10 + 1) → Schedule.zero.byte k = otherSchedule.byte k := by decide +kernel

theorem witness_SboxIsInverseThenAffine : (0xff : Byte) ≠ 0 := by decide

/-- The first and last recurrence indices of AES256, and its midpoint and multiple-of-Nk cases. -/
theorem witness_KeyExpansionFollowsRecurrence :
    (Variant.aes256, 8, 14) ∈ [(Variant.aes128, 4, 10), (.aes192, 6, 12), (.aes256, 8, 14)] ∧
    8 ≤ 8 ∧ 8 % 8 = 0 ∧ 12 % 8 = 4 ∧ 59 < 4 * (14 + 1) := by decide

theorem witness_RoundKeysAreScheduleWords : 14 ≤ Variant.aes256.nr ∧ 15 < 16 := by decide

theorem witness_CmdWriteLatchesOrDrops : State.reset.pending = none ∧
    (running (bare none) [] ⟨0x0A, 0, 0, 0⟩).pending ≠ none := by decide

/-- A byte at the window's last address, a misaligned word, and a halfword at its first; a 64-bit access at its first and one that
starts seven bytes before it; a word that starts one byte before the window, one that starts three before it, and one that
ends just before it. -/
theorem witness_RefusedRegisterAccessSetsMark :
    ((0x1F : Addr) - State.reset.platform.aesBase).toNat < 32 ∧ AccessSize.byte ≠ .word ∧
    ((0x12 : Addr) - State.reset.platform.aesBase).toNat % 4 ≠ 0 ∧
    ((0x00 : Addr) - State.reset.platform.aesBase).toNat < 32 ∧ AccessSize.half ≠ .word ∧
    AccessSize.wide 3 ≠ .word ∧ (AccessSize.wide 3).bytes = 8 ∧
    2 ^ 32 < (0xFFFFFFF9#32 - State.reset.platform.aesBase).toNat + (AccessSize.wide 3).bytes ∧
    2 ^ 32 < (0xFFFFFFFF#32 - State.reset.platform.aesBase).toNat + AccessSize.word.bytes ∧
    2 ^ 32 < (0xFFFFFFFD#32 - State.reset.platform.aesBase).toNat + AccessSize.word.bytes ∧
    ¬ 2 ^ 32 < (0xFFFFFFFC#32 - State.reset.platform.aesBase).toNat + AccessSize.word.bytes ∧
    State.reset.fault = none := by decide

theorem witness_OperandsAreLatched : (running (bare none) [] ⟨0x0A, 0, 0, 0⟩).raced = false ∧
    ∃ t, exec .clear (running (bare none) [] ⟨0x0A, 0, 0, 0⟩) = .next t ∧ t.err ≠ .busFault := ⟨rfl, _, rfl, by decide⟩

theorem witness_ResetInputRestoresCore : State.reset.pending = none := rfl

theorem witness_ResetDuringBusySetsMark :
    (running (bare none) [] ⟨0x04, 0x300, 0, 0⟩).pending = some ⟨0x04, 0x300, 0, 0⟩ ∧
    (running (bare none) [] ⟨0x04, 0x300, 0, 0⟩).fault = none ∧
    (running (bare none) [] ⟨0x04, 0x300, 0, 0⟩).raced = false ∧ decode 0x04 = .ok .getIv ∧
    inPendingRegion (running (bare none) [] ⟨0x04, 0x300, 0, 0⟩) 0x310 = false ∧
    (∀ r ∈ regions .getIv ⟨0x04, 0x300, 0, 0⟩, r.written = true → ¬ (r.base ≤ 0x2FF ∧ 0x2FF < r.base + r.len)) :=
  ⟨rfl, rfl, rfl, rfl, by decide, by decide⟩

/-- A host read and a host write of a byte of a pending command's region that the platform does not answer are races. -/
theorem test_race_unanswered :
    answers (hostStep (.memRead 0x205) (silentAt 0x205 (some .aes128) ⟨0x05, 0x200, 0, 0⟩))
      (fun t => t.fault == some .hostRace) = true ∧
    answers (hostStep (.memWrite 0x205 7) (silentAt 0x205 (some .aes128) ⟨0x05, 0x200, 0, 0⟩))
      (fun t => t.fault == some .hostRace) = true := by decide +kernel

/-- The first and the last byte of the region of a pending GET_IV, the bytes just beside it, and an unanswered byte of a
region. -/
theorem witness_HostAccessToPendingRegionIsRace :
    (running (bare none) [] ⟨0x04, 0x300, 0, 0⟩).platform.kindAt (0x300#32).toNat ≠ .device ∧
    (running (bare none) [] ⟨0x04, 0x300, 0, 0⟩).pending = some ⟨0x04, 0x300, 0, 0⟩ ∧ decode 0x04 = .ok .getIv ∧
    check .getIv ⟨0x04, 0x300, 0, 0⟩ (running (bare none) [] ⟨0x04, 0x300, 0, 0⟩).ctx.kv = .ok ∧
    (⟨0x300, 16, false, true⟩ : Region) ∈ regions .getIv ⟨0x04, 0x300, 0, 0⟩ ∧
    (0x300 ≤ (0x300#32).toNat ∧ (0x300#32).toNat < 0x300 + 16) ∧ (0x300 ≤ (0x30F#32).toNat ∧ (0x30F#32).toNat < 0x300 + 16) ∧
    inPendingRegion (running (bare none) [] ⟨0x04, 0x300, 0, 0⟩) (0x310#32).toNat = false ∧
    inPendingRegion (running (bare none) [] ⟨0x04, 0x300, 0, 0⟩) (0x2FF#32).toNat = false ∧
    (running (bare none) [] ⟨0x04, 0x300, 0, 0⟩).platform.kindAt (0x310#32).toNat = .plain ∧
    (silentAt 0x30F none ⟨0x04, 0x300, 0, 0⟩).platform.kindAt (0x30F#32).toNat = .unanswered ∧
    State.reset.pending = none :=
  ⟨by decide, rfl, rfl, rfl, by decide, by decide, by decide, by decide, by decide, by decide, by decide, rfl⟩

theorem witness_WaitPollsUntilIdle : State.reset.pending = none ∧
    (running (bare none) [] ⟨0x0A, 0, 0, 0⟩).pending ≠ none := by decide

theorem witness_CommandsKeepOperandRegisters :
    ∃ t, exec .clear (running (bare none) [] ⟨0x0A, 0, 0, 0⟩) = .next t := ⟨_, rfl⟩

theorem witness_NonStoringCommandsKeepMemory :
    (running (bare none) [] ⟨0x0A, 0, 0, 0⟩).raced = false ∧
    ∃ t, exec .clear (running (bare none) [] ⟨0x0A, 0, 0, 0⟩) = .next t ∧ t.err ≠ .busFault :=
  ⟨rfl, _, rfl, by decide⟩

theorem witness_StoringCommandsKeepOtherBytes :
    (running (bare none) [] ⟨0x04, 0x300, 0, 0⟩).Runs ⟨0x04, 0x300, 0, 0⟩ ∧
    (∃ t, exec .getIv (running (bare none) [] ⟨0x04, 0x300, 0, 0⟩) = .next t ∧ t.err ≠ .busFault) ∧
    (running (bare (some .aes128)) [] ⟨0x09, 0xFFFFFFFF, 0, 0⟩).Runs ⟨0x09, 0xFFFFFFFF, 0, 0⟩ ∧
    ∃ t, exec .ctrXcrypt (running (bare (some .aes128)) [] ⟨0x09, 0xFFFFFFFF, 0, 0⟩) = .next t :=
  ⟨⟨rfl, rfl⟩, ⟨_, rfl, by decide⟩, ⟨rfl, rfl⟩, _, rfl⟩

theorem witness_OnlyInitClearResetChangeKey :
    ∃ t, step (running (bare (some .aes192)) [] ⟨0x0A, 0, 0, 0⟩) = .next t ∧
      t.ctx.kv ≠ (running (bare (some .aes192)) [] ⟨0x0A, 0, 0, 0⟩).ctx.kv := ⟨_, rfl, by decide⟩

theorem witness_OnlyFourEventsWriteScratch :
    ∃ t, step (running { Ctx.reset with scr := hexBlock 1 } [] ⟨0x0A, 0, 0, 0⟩) = .next t ∧ t.fault = none ∧
      t.ctx.scr ≠ (running { Ctx.reset with scr := hexBlock 1 } [] ⟨0x0A, 0, 0, 0⟩).ctx.scr ∧
      (running { Ctx.reset with scr := hexBlock 1 } [] ⟨0x0A, 0, 0, 0⟩).raced = false :=
  ⟨_, rfl, rfl, by decide, rfl⟩

theorem witness_ContextCommandsHideSecrets : Instr.getIv ∈ [Instr.getIv, .setIv, .clear] ∧
    (running .reset [] ⟨0x04, 0x300, 0, 0⟩).raced = false ∧
    (∃ t, exec .getIv (running .reset [] ⟨0x04, 0x300, 0, 0⟩) = .next t ∧ t.err ≠ .busFault) ∧
    ∃ u, exec .getIv { running .reset [] ⟨0x04, 0x300, 0, 0⟩ with
      ctx := { Ctx.reset with rk := otherSchedule, scr := hexBlock 1 } } = .next u :=
  ⟨by decide, rfl, ⟨_, rfl, by decide⟩, ⟨_, rfl⟩⟩

theorem witness_FaultMarkIsNeverCleared :
    { State.reset with fault := some .busFault }.fault ≠ none ∧
    ∃ t, step { State.reset with fault := some .busFault } = .next t := ⟨by decide, _, rfl⟩

theorem witness_StepKeepsSoundState : State.reset.Inv ∧ ∃ t, step State.reset = .next t :=
  ⟨⟨by decide, by decide, fun _ => rfl⟩, _, rfl⟩

end Sys2Proof.Tests
end

section
/-! PROOFS. The STATUS word as a number and field by field (R41), where an aligned 32-bit access of the window lands (R47),
and what a write to CMD does (R40). -/

namespace Sys2Proof.Machine

/-! ### The latch and BUSY -/

/-- BUSY reads 0 exactly when the latch is empty (R49). -/
theorem busy_eq_false_iff {s : State} : s.busy = false ↔ s.pending = none :=
  Option.isSome_eq_false_iff.trans Option.isNone_iff_eq_none

/-- BUSY reads 1 when the latch is not empty (R49). -/
theorem busy_of_pending_ne_none {s : State} (h : s.pending ≠ none) : s.busy = true := Option.isSome_iff_ne_none.2 h

/-- A choice on the latch being empty is the opposite choice on BUSY (R49). -/
theorem ite_pending_eq_none {α : Type} (s : State) (a b : α) :
    (if s.pending = none then a else b) = if s.busy then b else a := by
  split
  · next h => rw [busy_eq_false_iff.2 h]; rfl
  · next h => rw [busy_of_pending_ne_none h]; rfl

/-! ### The STATUS word (R41) -/

theorem flagBit_toNat (b : Bool) : (flagBit b).toNat = b.toNat := by cases b <;> rfl

/-- A field put above the bits in use adds its value, scaled by its position. -/
theorem toNat_or_shiftLeft {x y : Reg32} (i : Nat) (hx : x.toNat < 2 ^ i) (hy : y.toNat * 2 ^ i < 2 ^ 32) :
    (x ||| y <<< i).toNat = x.toNat + y.toNat * 2 ^ i := by
  rw [BitVec.toNat_or, BitVec.toNat_shiftLeft, Nat.shiftLeft_eq, Nat.mod_eq_of_lt hy, Nat.or_comm,
    ← Nat.shiftLeft_eq, ← Nat.shiftLeft_add_eq_or_of_lt hx, Nat.add_comm]

/-- STATUS as a number: each field at its weight (R41). -/
theorem statusWord_toNat (s : State) :
    (statusWord s).toNat = s.busy.toNat + 2 * s.ovr.toNat + 16 * s.err.code.toNat + 256 * (kvCode s.ctx.kv).toNat := by
  have hbusy := s.busy.toNat_le
  have hovr := s.ovr.toNat_le
  have hcode := s.err.code.isLt
  have hkv := (kvCode s.ctx.kv).isLt
  have hcode32 : (s.err.code.zeroExtend 32).toNat = s.err.code.toNat := BitVec.toNat_setWidth_of_le (by decide)
  have hkv32 : ((kvCode s.ctx.kv).zeroExtend 32).toNat = (kvCode s.ctx.kv).toNat :=
    BitVec.toNat_setWidth_of_le (by decide)
  have hflags : (flagBit s.busy ||| flagBit s.ovr <<< 1).toNat = s.busy.toNat + 2 * s.ovr.toNat := by
    rw [toNat_or_shiftLeft 1] <;> simp only [flagBit_toNat] <;> omega
  have herr : (flagBit s.busy ||| flagBit s.ovr <<< 1 ||| s.err.code.zeroExtend 32 <<< 4).toNat =
      s.busy.toNat + 2 * s.ovr.toNat + 16 * s.err.code.toNat := by
    rw [toNat_or_shiftLeft 4] <;> omega
  rw [statusWord, toNat_or_shiftLeft 8] <;> omega

/-- The field of `len` bits from bit `start` on, read off the number of the word. -/
theorem extractLsb'_eq_of_toNat {w : Reg32} {start len : Nat} {x : BitVec len}
    (h : w.toNat / 2 ^ start % 2 ^ len = x.toNat) : w.extractLsb' start len = x :=
  BitVec.eq_of_toNat_eq (by rw [BitVec.extractLsb'_toNat, Nat.shiftRight_eq_div_pow, h])

/-- Every field of STATUS at its bits; bits 3:2 and 31:10 read 0 (R41). -/
theorem statusWord_fields (s : State) :
    (statusWord s).extractLsb' 0 1 = BitVec.ofBool s.busy ∧
    (statusWord s).extractLsb' 1 1 = BitVec.ofBool s.ovr ∧
    (statusWord s).extractLsb' 2 2 = 0 ∧
    (statusWord s).extractLsb' 4 4 = s.err.code ∧
    (statusWord s).extractLsb' 8 2 = kvCode s.ctx.kv ∧
    (statusWord s).extractLsb' 10 22 = 0 := by
  have hnum := statusWord_toNat s
  have hbusy := s.busy.toNat_le
  have hovr := s.ovr.toNat_le
  have hcode := s.err.code.isLt
  have hkv := (kvCode s.ctx.kv).isLt
  refine ⟨?busy, ?ovr, ?low, ?err, ?kv, ?high⟩ <;> apply extractLsb'_eq_of_toNat <;> rw [hnum]
  case busy | ovr => rw [BitVec.toNat_ofBool]; omega
  case err | kv => omega
  case low | high => rw [BitVec.ofNat_eq_ofNat, BitVec.toNat_zero]; omega

/-- Settles O41: the fields are read off the number of the word; a write to STATUS is dropped by `regStore`. -/
theorem statusWordLayout : Obligations.StatusWordLayout := by
  unfold Obligations.StatusWordLayout
  refine ⟨fun s => ?_, fun _ _ => rfl, by decide⟩
  obtain ⟨hbusy, hovr, hlow, herr, hkv, hhigh⟩ := statusWord_fields s
  refine ⟨?busy, ?ovr, hlow, herr, hkv, hhigh, ?number⟩
  case busy => rw [hbusy, ite_pending_eq_none]; cases s.busy <;> rfl
  case ovr => rw [hovr]; cases s.ovr <;> rfl
  case number =>
    rw [statusWord_toNat, ite_pending_eq_none]
    cases s.busy <;> cases s.ovr <;> rfl

/-! ### Aligned 32-bit accesses of the register window (R47) -/

/-- An aligned 32-bit access at an offset inside the window lands on the register of that offset. -/
theorem windowHit_word (base : BusAddr) {off : BusAddr} (hlt : off.toNat < 32) (haligned : off.toNat % 4 = 0) :
    windowHit base (base + off) .word = .register (regAt off.toNat) := by
  have hoff : base + off - base = off := by rw [BitVec.add_comm, BitVec.add_sub_cancel]
  simp [windowHit, hoff, hlt, haligned]

/-- An aligned 32-bit write inside the window is a write to the register of its offset, and nothing else. -/
theorem hostStep_regWrite_word (s : State) {off : BusAddr} (v : Reg32) (hlt : off.toNat < 32)
    (haligned : off.toNat % 4 = 0) :
    hostStep (.regWrite (s.platform.aesBase + off) .word v) s = .next (regStore (regAt off.toNat) v s) := by
  rw [hostStep, hostRegWrite, windowHit_word _ hlt haligned]

/-- An aligned 32-bit read inside the window returns the register of its offset, and changes nothing else. -/
theorem hostStep_regRead_word (s : State) {off : BusAddr} (hlt : off.toNat < 32) (haligned : off.toNat % 4 = 0) :
    hostStep (.regRead (s.platform.aesBase + off) .word) s = .next (s.returning (regValue (regAt off.toNat) s)) := by
  rw [hostStep, hostRegRead, windowHit_word _ hlt haligned]

/-! ### A write to CMD (R40) -/

/-- With BUSY = 0 the word is latched with the operands, and OVR and ERR are cleared. -/
theorem cmdWrite_of_idle {s : State} (w : Reg32) (h : s.pending = none) :
    cmdWrite w s =
      { s with pending := some ⟨w, s.opa, s.opb, s.oplen⟩, ovr := false, err := .ok, raced := false } := by
  simp [cmdWrite, busy_eq_false_iff.2 h]

/-- With BUSY = 1 the word is dropped, and OVR is set. -/
theorem cmdWrite_of_busy {s : State} (w : Reg32) (h : s.pending ≠ none) : cmdWrite w s = { s with ovr := true } := by
  simp [cmdWrite, busy_of_pending_ne_none h]

/-- Settles O42: CMD is the register at offset 0, and `cmdWrite` splits on BUSY. -/
theorem cmdWriteLatchesOrDrops : Obligations.CmdWriteLatchesOrDrops := by
  unfold Obligations.CmdWriteLatchesOrDrops
  intro s w
  have hwrite : hostStep (.regWrite s.platform.aesBase .word w) s = .next (cmdWrite w s) := by
    simpa [regAt, regStore] using hostStep_regWrite_word s (off := 0) w (by decide) (by decide)
  have hread : hostStep (.regRead s.platform.aesBase .word) s = .next (s.returning 0) := by
    simpa [regAt, regValue] using hostStep_regRead_word s (off := 0) (by decide) (by decide)
  refine ⟨fun hidle => ?_, fun hbusy => ?_, hread⟩
  · rw [hwrite, cmdWrite_of_idle w hidle]
  · rw [hwrite, cmdWrite_of_busy w hbusy]

end Sys2Proof.Machine
end

section
/-! PROOFS. Which words decode: the arms of the decoder, the word as its fields (R100 to R106), and what the
core's turn does with a word that does not (R304). -/

namespace Sys2Proof

/-! ### The two kinds of decoding arm (R102) -/

theorem decodeInit_eq_ok_iff {var : BitVec 2} {i128 i192 i256 i : Instr} :
    decodeInit var i128 i192 i256 = .ok i ↔ (var = 1 ∧ i128 = i) ∨ (var = 2 ∧ i192 = i) ∨ (var = 3 ∧ i256 = i) := by
  have hvar : var = 0 ∨ var = 1 ∨ var = 2 ∨ var = 3 := by decide +revert
  obtain rfl | rfl | rfl | rfl := hvar <;> simp [decodeInit]

theorem decodePlain_eq_ok_iff {var : BitVec 2} {i j : Instr} : decodePlain var i = .ok j ↔ var = 0 ∧ i = j := by
  unfold decodePlain
  split <;> simp_all

/-! ### Fields and words -/

/-- Each bit of a word comes from the one field that R100 puts there. -/
theorem getLsbD_wordOf (f : Fields) (k : Nat) : (wordOf f).getLsbD k =
    if k < 4 then f.opcode.getLsbD k else if k < 6 then f.var.getLsbD (k - 4) else f.rsv.getLsbD (k - 6) := by
  simp only [wordOf, BitVec.getLsbD_or, BitVec.getLsbD_shiftLeft, BitVec.getLsbD_setWidth]
  split_ifs <;> grind

/-- A word is the word of its fields (R100). -/
theorem wordOf_fieldsOf (w : Reg32) : wordOf (fieldsOf w) = w := by
  apply BitVec.eq_of_getLsbD_eq
  intro k hk
  rw [getLsbD_wordOf]
  simp only [fieldsOf, BitVec.getLsbD_extractLsb']
  split_ifs with hop hvar
  · simp [hop]
  · simp [show k - 4 < 2 by omega, show 4 + (k - 4) = k by omega]
  · simp [show k - 6 < 26 by omega, show 6 + (k - 6) = k by omega]

/-- The fields that decode to a command are its own: no two legal words mean the same (R105). -/
theorem eq_encodeFields_of_decodeFields {f : Fields} {i : Instr} (h : decodeFields f = .ok i) : f = encodeFields i := by
  obtain ⟨rsv, var, opcode⟩ := f
  by_cases hrsv : rsv ≠ 0
  · rw [decodeFields, if_pos hrsv] at h
    cases h
  · rw [decodeFields, if_neg hrsv] at h
    obtain rfl := not_not.1 hrsv
    dsimp only at h
    split at h <;> rename_i hop
    case h_1 | h_2 =>
      obtain ⟨rfl, rfl⟩ | ⟨rfl, rfl⟩ | ⟨rfl, rfl⟩ := decodeInit_eq_ok_iff.1 h <;>
        exact congrArg (Fields.mk 0 _) (BitVec.eq_of_toNat_eq hop)
    case h_11 => cases h
    all_goals
      obtain ⟨rfl, rfl⟩ := decodePlain_eq_ok_iff.1 h
      exact congrArg (Fields.mk 0 0) (BitVec.eq_of_toNat_eq hop)

/-- The one word that decodes to a command is the command's own (R105). -/
theorem eq_encode_of_decode {w : Reg32} {i : Instr} (h : decode w = .ok i) : w = encode i := by
  rw [encode, ← eq_encodeFields_of_decodeFields h, wordOf_fieldsOf]

/-! ### The legal words (R105) -/

/-- R105's two conditions: an INIT opcode with a variant, or another command's opcode with VAR = 00. -/
theorem exists_decodeFields_iff (f : Fields) : (∃ i, decodeFields f = .ok i) ↔
    f.rsv = 0 ∧ ((f.opcode ∈ [1#4, 2#4] ∧ f.var ∈ [1#2, 2#2, 3#2]) ∨
      (f.opcode ∈ [3#4, 4#4, 5#4, 6#4, 7#4, 8#4, 9#4, 10#4] ∧ f.var = 0)) := by
  constructor
  · rintro ⟨i, h⟩
    rw [eq_encodeFields_of_decodeFields h]
    cases i <;> decide
  · obtain ⟨rsv, var, opcode⟩ := f
    simp only [List.mem_cons, List.not_mem_nil, or_false]
    rintro ⟨rfl, ⟨rfl | rfl, rfl | rfl | rfl⟩ | ⟨rfl | rfl | rfl | rfl | rfl | rfl | rfl | rfl, rfl⟩⟩ <;>
      exact ⟨_, rfl⟩

/-- R105's list of the fourteen words. -/
theorem exists_decode_iff_mem (w : Reg32) : (∃ i, decode w = .ok i) ↔
    w ∈ [0x11#32, 0x21#32, 0x31#32, 0x12#32, 0x22#32, 0x32#32, 0x03#32, 0x04#32, 0x05#32, 0x06#32, 0x07#32, 0x08#32,
      0x09#32, 0x0A#32] := by
  constructor
  · rintro ⟨i, h⟩
    rw [eq_encode_of_decode h]
    cases i <;> decide
  · simp only [List.mem_cons, List.not_mem_nil, or_false]
    rintro (rfl | rfl | rfl | rfl | rfl | rfl | rfl | rfl | rfl | rfl | rfl | rfl | rfl | rfl) <;> exact ⟨_, rfl⟩

end Sys2Proof

namespace Sys2Proof.Machine

/-- The core's turn on an illegal word ends it with IllegalCommand, and nothing else changes (R304). -/
theorem coreTurn_of_decode_error {s : State} {p : Pending} {e : DecodeError} (hp : s.pending = some p)
    (hd : decode p.w = .error e) : coreTurn s = .next (s.finish .illegalCommand) := by
  simp [coreTurn, hp, hd]

/-- Settles O3: R105's conditions and its list each say which words decode, and a word that does not decode is refused in
the core's turn. -/
theorem legalWordsAreTheFourteen : Obligations.LegalWordsAreTheFourteen := by
  unfold Obligations.LegalWordsAreTheFourteen
  refine ⟨fun w => exists_decodeFields_iff (fieldsOf w), exists_decode_iff_mem, fun s p hp hillegal => ?_⟩
  cases hd : decode p.w with
  | error e => exact coreTurn_of_decode_error hp hd
  | ok i => exact absurd ⟨i, hd⟩ hillegal

end Sys2Proof.Machine
end

section
/-! PROOFS. The S-box table against its definition: the field inverse, then the affine map (R130, R133, R152). -/

namespace Sys2Proof.Machine

/-- The inverse of the affine map of R152, again rotations and a constant; `sboxAffine_sboxAffineInv` says that it is one. -/
def sboxAffineInv (b : Byte) : Byte := rotl8 b 1 ^^^ rotl8 b 3 ^^^ rotl8 b 6 ^^^ 0x05

theorem sboxAffine_sboxAffineInv (b : Byte) : sboxAffine (sboxAffineInv b) = b := by
  decide +revert

/-- Undoing the affine map on the table's entry for a nonzero byte gives the byte's field inverse. -/
theorem gmul_sboxAffineInv_sbox {x : Byte} (hx : x ≠ 0) : gmul x (sboxAffineInv (sbox x)) = 0x01 := by
  decide +revert

/-- Settles O36: the inverse of a nonzero byte is read off its table entry by undoing the affine map. -/
theorem sboxIsInverseThenAffine : Obligations.SboxIsInverseThenAffine := by
  unfold Obligations.SboxIsInverseThenAffine
  refine ⟨fun x hx => ⟨sboxAffineInv (sbox x), gmul_sboxAffineInv_sbox hx, ?entry⟩, ?zero⟩
  case entry => rw [sboxAffine_sboxAffineInv]
  case zero => decide

end Sys2Proof.Machine
end

section
/-! PROOFS. The recurrence of the key schedule, read off the finished word list (R171, R172). -/

namespace Sys2Proof.Machine

/-- The first word appended is the recurrence's, from the words before it (R172). -/
theorem expandWords_succ_getD_length (nk n : Nat) (ws : List Word) :
    (expandWords nk (n + 1) ws).getD ws.length .zero =
      (ws.getD (ws.length - nk) .zero).xor (scheduleTerm nk ws.length (ws.getD (ws.length - 1) .zero)) := by
  rw [expandWords, expandWords_getD (by simp)]
  simp

/-- Every word appended obeys the recurrence within the finished list, since words already there stay (R172). -/
theorem expandWords_recurrence {nk n i : Nat} {ws : List Word} (hnk : 0 < nk) (hws : 0 < ws.length)
    (hle : ws.length ≤ i) (hlt : i < ws.length + n) :
    (expandWords nk n ws).getD i .zero = ((expandWords nk n ws).getD (i - nk) .zero).xor
      (scheduleTerm nk i ((expandWords nk n ws).getD (i - 1) .zero)) := by
  induction n generalizing ws with
  | zero => omega
  | succ n ih =>
    obtain rfl | hlater := hle.eq_or_lt
    · rw [expandWords_succ_getD_length, expandWords_getD (by omega), expandWords_getD (by omega)]
    · rw [expandWords]
      apply ih <;> rw [List.length_append, List.length_singleton] <;> omega

theorem Variant.nk_pos (v : Variant) : 0 < v.nk := by cases v <;> decide

/-- A word below Nk is four bytes of the key (R171). -/
theorem scheduleWords_getD_of_lt {v : Variant} {i : Nat} (key : List Byte) (hi : i < v.nk) :
    (scheduleWords key v).getD i .zero =
      ⟨key.getD (4 * i) 0, key.getD (4 * i + 1) 0, key.getD (4 * i + 2) 0, key.getD (4 * i + 3) 0⟩ := by
  rw [scheduleWords, expandWords_getD (by rwa [keyWords_length]), List.getD_eq_getElem _ _ (by rwa [keyWords_length])]
  simp [keyWords, Word.ofFn]

/-- A word from Nk on is the word Nk back with the term from the previous word added (R172). -/
theorem scheduleWords_recurrence {v : Variant} {i : Nat} (key : List Byte) (hle : v.nk ≤ i)
    (hlt : i < 4 * (v.nr + 1)) :
    (scheduleWords key v).getD i .zero = ((scheduleWords key v).getD (i - v.nk) .zero).xor
      (scheduleTerm v.nk i ((scheduleWords key v).getD (i - 1) .zero)) := by
  have hnk := v.nk_pos
  apply expandWords_recurrence hnk <;> rw [keyWords_length] <;> omega

/-- Byte 4i + k of the schedule is byte k of its word i (R171). -/
theorem keyExpansion_getD {v : Variant} {i k : Nat} (key : List Byte) (hi : i < 4 * (v.nr + 1)) (hk : k < 4) :
    (keyExpansion key v).getD (4 * i + k) 0 = ((scheduleWords key v).getD i .zero).toList.getD k 0 :=
  getD_flatMap_toList (by rwa [scheduleWords_length]) hk

/-- R170's table of sizes: its rows are the variants with their Nk and Nr. -/
theorem eq_nk_nr_of_mem_sizes {v : Variant} {nk nr : Nat}
    (h : (v, nk, nr) ∈ [(Variant.aes128, 4, 10), (.aes192, 6, 12), (.aes256, 8, 14)]) : nk = v.nk ∧ nr = v.nr := by
  cases v <;> simpa [Variant.nk, Variant.nr] using h

/-- Settles O39: with Nk and Nr read as the variant's own, each clause is a fact about the finished word list; the
recurrence's term is `scheduleTerm`. -/
theorem keyExpansionFollowsRecurrence : Obligations.KeyExpansionFollowsRecurrence := by
  unfold Obligations.KeyExpansionFollowsRecurrence
  intro v nk nr key hsizes
  obtain ⟨rfl, rfl⟩ := eq_nk_nr_of_mem_sizes hsizes
  exact ⟨scheduleWords_length key v, fun i hi => scheduleWords_getD_of_lt key hi,
    fun i hle hlt => scheduleWords_recurrence key hle hlt, fun i k hi hk => keyExpansion_getD key hi hk⟩

end Sys2Proof.Machine
end

section
/-! PROOFS. What the block transforms read of the schedule: their round keys, and no byte past them (R201). -/

namespace Sys2Proof.Machine

/-- Round key r, r ≤ Nr, lies within the first 16(Nr+1) bytes (R32, R175). -/
theorem roundKey_congr {rk rk' : Schedule} {nr r : Nat} (h : ∀ k, k < 16 * (nr + 1) → rk.byte k = rk'.byte k)
    (hr : r ≤ nr) : rk.roundKey r = rk'.roundKey r :=
  Block.ofFn_congr fun k hk => h (16 * r + k) (by omega)

/-- Rounds 1 to n of Cipher read round keys up to n only. -/
theorem encRounds_congr {rk rk' : Schedule} {n : Nat} (h : ∀ r, r ≤ n → rk.roundKey r = rk'.roundKey r) (s : Block) :
    encRounds rk n s = encRounds rk' n s := by
  induction n with
  | zero => rfl
  | succ n ih => rw [encRounds, encRounds, ih fun r hr => h r (Nat.le_succ_of_le hr), h (n + 1) le_rfl]

/-- Rounds n to 1 of InvCipher read round keys up to n only; the state is general, since round n acts on it first. -/
theorem decRounds_congr {rk rk' : Schedule} {n : Nat} (h : ∀ r, r ≤ n → rk.roundKey r = rk'.roundKey r) (s : Block) :
    decRounds rk n s = decRounds rk' n s := by
  induction n generalizing s with
  | zero => rfl
  | succ n ih => rw [decRounds, decRounds, h (n + 1) le_rfl, ih fun r hr => h r (Nat.le_succ_of_le hr)]

/-- Cipher reads round keys 0 to Nr only (R198). -/
theorem cipher_congr {rk rk' : Schedule} {nr : Nat} (h : ∀ r, r ≤ nr → rk.roundKey r = rk'.roundKey r) (b : Block) :
    cipher b rk nr = cipher b rk' nr := by
  have hrounds := encRounds_congr (n := nr - 1) fun r hr => h r (hr.trans (nr.sub_le 1))
  simp only [cipher, h 0 nr.zero_le, h nr le_rfl, hrounds]

/-- InvCipher reads round keys 0 to Nr only (R199). -/
theorem invCipher_congr {rk rk' : Schedule} {nr : Nat} (h : ∀ r, r ≤ nr → rk.roundKey r = rk'.roundKey r) (b : Block) :
    invCipher b rk nr = invCipher b rk' nr := by
  have hrounds := decRounds_congr (n := nr - 1) fun r hr => h r (hr.trans (nr.sub_le 1))
  simp only [invCipher, h 0 nr.zero_le, h nr le_rfl, hrounds]

/-- Settles O34: schedules that agree on 16(Nr+1) bytes have the same round keys 0 to Nr, which are all that either
transform reads. -/
theorem cipherReadsOnlyItsRoundKeys : Obligations.CipherReadsOnlyItsRoundKeys := by
  unfold Obligations.CipherReadsOnlyItsRoundKeys
  intro b rk rk' nr hbytes
  have hkeys : ∀ r, r ≤ nr → rk.roundKey r = rk'.roundKey r := fun _ hr => roundKey_congr hbytes hr
  exact ⟨cipher_congr hkeys b, invCipher_congr hkeys b⟩

end Sys2Proof.Machine
end

section
/-! PROOFS. How any pending command ends, in the shapes of answer that the statements share: a failed check, a bus fault,
a completion (R300, R303, R309). -/

namespace Sys2Proof.Machine

/-! ### What the scan of the regions meets -/

/-- A scan that does not answer plain names the kind of an address in its range. -/
theorem exists_kindAt_eq_of_scan {pf : Platform} {a n : Nat} {kind : AddrKind} (h : pf.scan a n = kind)
    (hne : kind ≠ .plain) : ∃ k, k < n ∧ pf.kindAt (a + k) = kind := by
  induction n generalizing a with
  | zero => exact absurd h.symm hne
  | succ n ih =>
    rw [Platform.scan] at h
    cases hfirst : pf.kindAt a <;> rw [hfirst] at h
    case plain =>
      obtain ⟨k, hk, hkind⟩ := ih h
      exact ⟨k + 1, by omega, by rwa [show a + (k + 1) = a + 1 + k by omega]⟩
    case unanswered | device => exact ⟨0, n.succ_pos, hfirst.trans h⟩

/-- A scan of regions that does not answer plain names the kind of an address in one of them. -/
theorem exists_kindAt_eq_of_scanRegions {pf : Platform} {rs : List Region} {kind : AddrKind}
    (h : scanRegions pf rs = kind) (hne : kind ≠ .plain) :
    ∃ r ∈ rs, ∃ k, k < r.len ∧ pf.kindAt (r.base + k) = kind := by
  induction rs with
  | nil => exact absurd h.symm hne
  | cons r rs ih =>
    rw [scanRegions] at h
    cases hfirst : pf.scan r.base r.len <;> rw [hfirst] at h
    case plain =>
      obtain ⟨q, hq, hkind⟩ := ih h
      exact ⟨q, List.mem_cons_of_mem r hq, hkind⟩
    case unanswered | device => exact ⟨r, List.mem_cons_self, exists_kindAt_eq_of_scan (hfirst.trans h) hne⟩

/-- With an unanswered address and no device in the regions, the scan answers unanswered (R79). -/
theorem scanRegions_eq_unanswered {pf : Platform} {rs : List Region}
    (hsilent : ∃ r ∈ rs, ∃ k, k < r.len ∧ pf.memOK (r.base + k) = false)
    (hdevice : ∀ r ∈ rs, ∀ k, k < r.len → pf.kindAt (r.base + k) ≠ .device) :
    scanRegions pf rs = .unanswered := by
  obtain ⟨r, hr, k, hk, hsilent⟩ := hsilent
  cases hscan : scanRegions pf rs with
  | unanswered => rfl
  | plain => simp [Platform.memOK, (scanRegions_plain_iff pf rs).1 hscan r hr k hk] at hsilent
  | device =>
    obtain ⟨q, hq, j, hj, hkind⟩ := exists_kindAt_eq_of_scanRegions hscan (by decide)
    exact absurd hkind (hdevice q hq j hj)

/-! ### The shapes of answer -/

section
variable {i : Instr} {s : State} {p : Pending}

/-- A failed check ends the command with its code (R303). -/
theorem endsWithError_of_check {e : ErrCode} (hp : s.pending = some p) (hcheck : check i p s.ctx.kv = e)
    (hne : e ≠ .ok) : EndsWithError i s e := by
  subst hcheck
  exact exec_error hp hne

/-- With the checks passed, an unanswered address in the regions ends the command with a bus fault (R309). -/
theorem busFaults_of_check_ok (hp : s.pending = some p) (hcheck : check i p s.ctx.kv = .ok) : BusFaults i s p := by
  intro hsilent hdevice
  have hscan := scanRegions_eq_unanswered hsilent hdevice
  obtain ⟨_, _, _, hfault⟩ := takeBusFault_eq i p s
  obtain ⟨_, _, _, _, _, hrace⟩ := settleRace_eq i p (takeBusFault i p s)
  refine ⟨_, (exec_eq i s).trans (complete_busFault hp hcheck hscan), rfl, rfl, ?_⟩
  rw [hrace, hfault]
  simp

/-- With the checks passed, the regions in plain memory and no race, the command completes in what its body leaves
(R300). -/
theorem completes_body (hruns : s.Runs p) (hcheck : check i p s.ctx.kv = .ok)
    (hplain : ∀ r ∈ regions i p, PlainFrom s r.base r.len) : Completes i s ((bodyOf i p s).finish .ok) := by
  obtain ⟨hp, hraced⟩ := hruns
  obtain ⟨_, _, hbody⟩ := bodyOf_eq i p s
  exact ⟨exec_body hp hraced hcheck ((scanRegions_plain_iff _ _).2 hplain), by rw [hbody]; rfl⟩

end

end Sys2Proof.Machine
end

section
/-! PROOFS. The context commands INIT_KEY, INIT_KEY_IV, SET_IV and GET_IV, clause by clause (R220 to R223). -/

namespace Sys2Proof.Machine

/-! ### The INIT commands -/

/-- The stored schedule of a key is zero past 16(Nr+1) bytes (R175). -/
theorem byte_ofBytes_keyExpansion_of_le {key : List Byte} {v : Variant} {k : Nat} (hk : 16 * (v.nr + 1) ≤ k) :
    (Schedule.ofBytes (keyExpansion key v)).byte k = 0 := by
  rw [Schedule.byte_ofBytes (keyExpansion_length_le key v), List.getD_eq_default]
  rwa [keyExpansion_length]

section
variable {i : Instr} {v : Variant} {len nr : Nat}

/-- The rows of INIT_KEY: the sizes are the variant's, the body is the variant's, and the key is the one region. -/
theorem initKey_row
    (h : (i, v, len, nr) ∈ [(Instr.initKeyAes128, Variant.aes128, 16, 10), (.initKeyAes192, .aes192, 24, 12),
      (.initKeyAes256, .aes256, 32, 14)]) :
    (i, v) ∈ [(Instr.initKeyAes128, Variant.aes128), (.initKeyAes192, .aes192), (.initKeyAes256, .aes256)] ∧
    len = 4 * v.nk ∧ nr = v.nr ∧ bodyOf i = initKeyBody v ∧
    ∀ p, regions i p = [⟨p.a.toNat, p.l.toNat, true, false⟩] := by
  simp only [List.mem_cons, Prod.mk.injEq, List.not_mem_nil, or_false] at h
  rcases h with ⟨rfl, rfl, rfl, rfl⟩ | ⟨rfl, rfl, rfl, rfl⟩ | ⟨rfl, rfl, rfl, rfl⟩ <;>
    exact ⟨by decide, rfl, rfl, rfl, fun _ => rfl⟩

/-- The rows of INIT_KEY_IV: as INIT_KEY's, with the IV as a second region. -/
theorem initKeyIv_row
    (h : (i, v, len, nr) ∈ [(Instr.initKeyIvAes128, Variant.aes128, 16, 10), (.initKeyIvAes192, .aes192, 24, 12),
      (.initKeyIvAes256, .aes256, 32, 14)]) :
    (i, v) ∈ [(Instr.initKeyIvAes128, Variant.aes128), (.initKeyIvAes192, .aes192), (.initKeyIvAes256, .aes256)] ∧
    len = 4 * v.nk ∧ nr = v.nr ∧ bodyOf i = initKeyIvBody v ∧
    ∀ p, regions i p = [⟨p.a.toNat, p.l.toNat, true, false⟩, ⟨p.b.toNat, 16, true, false⟩] := by
  simp only [List.mem_cons, Prod.mk.injEq, List.not_mem_nil, or_false] at h
  rcases h with ⟨rfl, rfl, rfl, rfl⟩ | ⟨rfl, rfl, rfl, rfl⟩ | ⟨rfl, rfl, rfl, rfl⟩ <;>
    exact ⟨by decide, rfl, rfl, rfl, fun _ => rfl⟩

end

/-- Settles O15: `check_initKey` decides between the clauses, and the body stores the key's expansion. -/
theorem initKeyEstablishesSchedule : Obligations.InitKeyEstablishesSchedule := by
  unfold Obligations.InitKeyEstablishesSchedule
  intro i v len nr s p hrow hruns
  obtain ⟨hi, rfl, rfl, hbody, hregions⟩ := initKey_row hrow
  have hcheck := check_initKey p s.ctx.kv hi
  have hok (hl : p.l.toNat = 4 * v.nk) (ha : p.a.toNat + 4 * v.nk ≤ 2 ^ 32) : check i p s.ctx.kv = .ok := by
    rw [hcheck, if_neg (not_not.2 hl), if_neg (by omega)]
  refine ⟨fun hl => ?length, fun hl ha => ?range, fun hl ha hplain => ?completes,
    fun hl ha => busFaults_of_check_ok hruns.1 (hok hl ha)⟩
  case length => exact endsWithError_of_check hruns.1 (by rw [hcheck, if_pos hl]) (by decide)
  case range =>
    exact endsWithError_of_check hruns.1 (by rw [hcheck, if_neg (not_not.2 hl), if_pos (by omega)]) (by decide)
  case completes =>
    have hregion : ∀ r ∈ regions i p, PlainFrom s r.base r.len := by simpa [hregions, hl] using hplain
    refine ⟨_, completes_body hruns (hok hl ha) hregion, ?_⟩
    rw [hbody, ← hl]
    exact ⟨rfl, rfl, rfl, fun k _ => Schedule.byte_ofBytes (keyExpansion_length_le _ v) k,
      fun k hk => byte_ofBytes_keyExpansion_of_le hk, fun _ => rfl⟩

/-- Settles O16: as INIT_KEY, with the range check over both regions and the IV read as the block at B. -/
theorem initKeyIvEstablishesScheduleAndIv : Obligations.InitKeyIvEstablishesScheduleAndIv := by
  unfold Obligations.InitKeyIvEstablishesScheduleAndIv
  intro i v len nr s p hrow hruns
  obtain ⟨hi, rfl, rfl, hbody, hregions⟩ := initKeyIv_row hrow
  have hcheck := check_initKeyIv p s.ctx.kv hi
  have hok (hl : p.l.toNat = 4 * v.nk) (ha : p.a.toNat + 4 * v.nk ≤ 2 ^ 32) (hb : p.b.toNat + 16 ≤ 2 ^ 32) :
      check i p s.ctx.kv = .ok := by
    rw [hcheck, if_neg (not_not.2 hl), if_neg (by omega)]
  refine ⟨fun hl => ?length, fun hl hab => ?range, fun hl ha hb hkey hiv => ?completes,
    fun hl ha hb => busFaults_of_check_ok hruns.1 (hok hl ha hb)⟩
  case length => exact endsWithError_of_check hruns.1 (by rw [hcheck, if_pos hl]) (by decide)
  case range =>
    exact endsWithError_of_check hruns.1 (by rw [hcheck, if_neg (not_not.2 hl), if_pos (by omega)]) (by decide)
  case completes =>
    have hregion : ∀ r ∈ regions i p, PlainFrom s r.base r.len := by simpa [hregions, hl] using ⟨hkey, hiv⟩
    refine ⟨_, completes_body hruns (hok hl ha hb) hregion, ?_⟩
    rw [hbody, ← hl]
    exact ⟨rfl, rfl, fun k hk => Memory.byte_readBlock s.mem p.b.toNat hk,
      fun k _ => Schedule.byte_ofBytes (keyExpansion_length_le _ v) k,
      fun k hk => byte_ofBytes_keyExpansion_of_le hk, fun _ => rfl⟩

/-! ### SET_IV and GET_IV -/

section
variable {i : Instr} {s : State} {p : Pending}

/-- SET_IV and GET_IV end with AddressRange when the 16 bytes at A run past 2^32, with or without a key (R308). -/
theorem endsWithError_iv_range (hi : i ∈ [Instr.setIv, .getIv]) (hp : s.pending = some p)
    (ha : p.a.toNat + 16 > 2 ^ 32) : EndsWithError i s .addressRange :=
  endsWithError_of_check hp (by rw [check_iv p _ hi, if_pos ha]) (by decide)

/-- SET_IV and GET_IV pass their checks when the 16 bytes at A end inside the address space, with or without a key. -/
theorem check_iv_eq_ok (hi : i ∈ [Instr.setIv, .getIv]) (kv : Option Variant) (ha : p.a.toNat + 16 ≤ 2 ^ 32) :
    check i p kv = .ok := by
  rw [check_iv p kv hi, if_neg (by omega)]

/-- The 16 bytes at A are the one region of SET_IV and GET_IV. -/
theorem plainFrom_iv_regions (hi : i ∈ [Instr.setIv, .getIv]) (hplain : PlainFrom s p.a.toNat 16) :
    ∀ r ∈ regions i p, PlainFrom s r.base r.len := by
  simp only [List.mem_cons, List.not_mem_nil, or_false] at hi
  rcases hi with rfl | rfl <;> simpa [regions] using hplain

end

/-- Settles O17: the range check decides between the clauses, and the body reads the block at A into the IV. -/
theorem setIvReadsIv : Obligations.SetIvReadsIv := by
  unfold Obligations.SetIvReadsIv
  intro s p hruns
  have hi : Instr.setIv ∈ [Instr.setIv, .getIv] := by decide
  refine ⟨endsWithError_iv_range hi hruns.1, fun ha hplain => ?completes,
    fun ha => busFaults_of_check_ok hruns.1 (check_iv_eq_ok hi _ ha)⟩
  case completes =>
    exact ⟨_, completes_body hruns (check_iv_eq_ok hi _ ha) (plainFrom_iv_regions hi hplain), rfl, rfl, rfl,
      fun k hk => Memory.byte_readBlock s.mem p.a.toNat hk, fun _ => rfl⟩

/-- Settles O18: the range check decides between the clauses, and the body writes the IV as the block at A. -/
theorem getIvWritesIv : Obligations.GetIvWritesIv := by
  unfold Obligations.GetIvWritesIv
  intro s p hruns
  have hi : Instr.getIv ∈ [Instr.setIv, .getIv] := by decide
  refine ⟨endsWithError_iv_range hi hruns.1, fun ha hplain => ?completes,
    fun ha => busFaults_of_check_ok hruns.1 (check_iv_eq_ok hi _ ha)⟩
  case completes =>
    refine ⟨_, completes_body hruns (check_iv_eq_ok hi _ ha) (plainFrom_iv_regions hi hplain), rfl, fun k hk => ?_,
      fun a hout => Memory.read_writeBlock_outside hout⟩
    have hread := Memory.byte_readBlock (s.mem.writeBlock p.a.toNat s.ctx.iv) p.a.toNat hk
    rw [Memory.readBlock_writeBlock] at hread
    exact hread.symm

end Sys2Proof.Machine
end

section
/-! PROOFS. The ECB commands: which check decides, and what ECB_ENC leaves in memory (R240). -/

namespace Sys2Proof.Machine

/-! ### What both ECB commands share -/

section
variable {i : Instr} {s : State} {p : Pending}

/-- An ECB command without a key ends with UninitializedContext, wherever its block lies (R302, R305). -/
theorem endsWithError_ecb_uninitialized (hi : i ∈ [Instr.ecbEnc, .ecbDec]) (hp : s.pending = some p)
    (hkv : s.ctx.kv = none) : EndsWithError i s .uninitializedContext :=
  endsWithError_of_check hp (by rw [check_ecb p _ hi, if_pos hkv]) (by decide)

/-- An ECB command with a key ends with AddressRange when the block at A runs past 2^32 (R308). -/
theorem endsWithError_ecb_range (hi : i ∈ [Instr.ecbEnc, .ecbDec]) (hp : s.pending = some p)
    (hkv : s.ctx.kv ≠ none) (ha : p.a.toNat + 16 > 2 ^ 32) : EndsWithError i s .addressRange :=
  endsWithError_of_check hp (by rw [check_ecb p _ hi, if_neg hkv, if_pos ha]) (by decide)

/-- An ECB command passes its checks with a key and a block inside the address space, whatever B and L. -/
theorem check_ecb_eq_ok {kv : Option Variant} (hi : i ∈ [Instr.ecbEnc, .ecbDec]) (hkv : kv ≠ none)
    (ha : p.a.toNat + 16 ≤ 2 ^ 32) : check i p kv = .ok := by
  rw [check_ecb p kv hi, if_neg hkv, if_neg (by omega)]

/-- The block at A is the one region of an ECB command. -/
theorem plainFrom_ecb_regions (hi : i ∈ [Instr.ecbEnc, .ecbDec]) (hplain : PlainFrom s p.a.toNat 16) :
    ∀ r ∈ regions i p, PlainFrom s r.base r.len := by
  simp only [List.mem_cons, List.not_mem_nil, or_false] at hi
  rcases hi with rfl | rfl <;> simpa [regions] using hplain

end

/-! ### ECB_ENC -/

/-- The round count of a context with a key is its variant's (R36). -/
theorem Ctx.nr_of_kv_eq_some {c : Ctx} {v : Variant} (h : c.kv = some v) : c.nr = v.nr := by rw [Ctx.nr, h]

/-- Settles O21: `check_ecb` decides between the clauses, and the body writes the Cipher of the block at A over it. -/
theorem ecbEncEncryptsBlock : Obligations.EcbEncEncryptsBlock := by
  unfold Obligations.EcbEncEncryptsBlock
  intro s p hruns
  have hi : Instr.ecbEnc ∈ [Instr.ecbEnc, .ecbDec] := by decide
  refine ⟨endsWithError_ecb_uninitialized hi hruns.1, endsWithError_ecb_range hi hruns.1,
    fun v hkv ha hplain => ?completes, fun hkv ha => busFaults_of_check_ok hruns.1 (check_ecb_eq_ok hi hkv ha)⟩
  case completes =>
    have hkey : s.ctx.kv ≠ none := by simp [hkv]
    refine ⟨_, completes_body hruns (check_ecb_eq_ok hi hkey ha) (plainFrom_ecb_regions hi hplain), rfl, ?block,
      fun a hout => Memory.read_writeBlock_outside hout⟩
    case block =>
      rw [← Ctx.nr_of_kv_eq_some hkv]
      exact Memory.readBlock_writeBlock s.mem p.a.toNat _

end Sys2Proof.Machine
end

section
/-! PROOFS. The CBC commands: which check decides, and what their block loops leave in memory, in the IV and in SCR
(R260, R261). -/

namespace Sys2Proof.Machine

/-! ### What both CBC commands share -/

section
variable {i : Instr} {s : State} {p : Pending}

/-- A CBC command without a key ends with UninitializedContext, whatever its operands (R302, R305). -/
theorem endsWithError_cbc_uninitialized (hi : i ∈ [Instr.cbcEnc, .cbcDec]) (hp : s.pending = some p)
    (hkv : s.ctx.kv = none) : EndsWithError i s .uninitializedContext :=
  endsWithError_of_check hp (by rw [check_cbc p _ hi, if_pos hkv]) (by decide)

/-- A CBC command with a key and a length that is no multiple of 16 ends with InvalidBufferLength, wherever its buffer
lies (R302, R307). -/
theorem endsWithError_cbc_length (hi : i ∈ [Instr.cbcEnc, .cbcDec]) (hp : s.pending = some p)
    (hkv : s.ctx.kv ≠ none) (hl : p.l.toNat % 16 ≠ 0) : EndsWithError i s .invalidBufferLength :=
  endsWithError_of_check hp (by rw [check_cbc p _ hi, if_neg hkv, if_pos hl]) (by decide)

/-- A CBC command with a key and whole blocks ends with AddressRange when its buffer is not empty and runs past 2^32
(R308). -/
theorem endsWithError_cbc_range (hi : i ∈ [Instr.cbcEnc, .cbcDec]) (hp : s.pending = some p)
    (hkv : s.ctx.kv ≠ none) (hl : p.l.toNat % 16 = 0) (hpos : 0 < p.l.toNat) (ha : p.a.toNat + p.l.toNat > 2 ^ 32) :
    EndsWithError i s .addressRange :=
  endsWithError_of_check hp
    (by rw [check_cbc p _ hi, if_neg hkv, if_neg (not_not.2 hl), if_pos ⟨hpos, ha⟩]) (by decide)

/-- A CBC command passes its checks with a key and whole blocks that end inside the address space; an empty buffer
always does. -/
theorem check_cbc_eq_ok {kv : Option Variant} (hi : i ∈ [Instr.cbcEnc, .cbcDec]) (hkv : kv ≠ none)
    (hl : p.l.toNat % 16 = 0) (ha : p.l.toNat = 0 ∨ p.a.toNat + p.l.toNat ≤ 2 ^ 32) : check i p kv = .ok := by
  rw [check_cbc p kv hi, if_neg hkv, if_neg (not_not.2 hl), if_neg (by omega)]

/-- The buffer is the one region of a CBC command. -/
theorem regions_cbc (hi : i ∈ [Instr.cbcEnc, .cbcDec]) : regions i p = [⟨p.a.toNat, p.l.toNat, true, true⟩] := by
  simp only [List.mem_cons, List.not_mem_nil, or_false] at hi
  rcases hi with rfl | rfl <;> rfl

/-- With the checks passed and the buffer in plain memory, a CBC command completes in what its body leaves. -/
theorem completes_cbc {v : Variant} (hi : i ∈ [Instr.cbcEnc, .cbcDec]) (hruns : s.Runs p) (hkv : s.ctx.kv = some v)
    (hl : p.l.toNat % 16 = 0) (ha : p.l.toNat = 0 ∨ p.a.toNat + p.l.toNat ≤ 2 ^ 32)
    (hplain : PlainFrom s p.a.toNat p.l.toNat) : Completes i s ((bodyOf i p s).finish .ok) :=
  completes_body hruns (check_cbc_eq_ok hi (by simp [hkv]) hl ha) (by simpa [regions_cbc hi] using hplain)

/-- The body of a CBC command stores nothing outside its buffer (R72). -/
theorem keepsMemoryOutside_cbc (hi : i ∈ [Instr.cbcEnc, .cbcDec]) :
    KeepsMemoryOutside s ((bodyOf i p s).finish .ok) p.a.toNat p.l.toNat := by
  intro x hout
  refine bodyOf_read_outside fun r hr _ => ?_
  rw [regions_cbc hi, List.mem_singleton] at hr
  subst hr
  simp only [Region.holds, decide_eq_false_iff_not]
  omega

end

/-! ### Loops that write block by block -/

/-- Step j of the loop changes no block of memory apart from the j-th block of the buffer at a. -/
def WritesOwnBlock (f : Nat → Run → Run) (a : Nat) : Prop :=
  ∀ j r c, c + 16 ≤ a + 16 * j ∨ a + 16 * j + 16 ≤ c → (f j r).mem.readBlock c = r.mem.readBlock c

section
variable {f : Nat → Run → Run} {a j n : Nat} {r : Run}

/-- Steps other than step j keep block j. -/
theorem readBlock_forBlocks_of_other {k : Nat} (hf : WritesOwnBlock f a) (h : j < k ∨ k + n ≤ j) :
    (forBlocks f n k r).mem.readBlock (a + 16 * j) = r.mem.readBlock (a + 16 * j) :=
  forBlocks_induct (P := fun r' => r'.mem.readBlock (a + 16 * j) = r.mem.readBlock (a + 16 * j)) rfl
    fun i r' hlo hhi hr' => (hf i r' _ (by omega)).trans hr'

/-- Before its own step, a block of the buffer is the input's. -/
theorem readBlock_forBlocks_self (hf : WritesOwnBlock f a) :
    (forBlocks f j 0 r).mem.readBlock (a + 16 * j) = r.mem.readBlock (a + 16 * j) :=
  readBlock_forBlocks_of_other hf (by omega)

/-- After n steps, a block that has had its step reads as that step left it. -/
theorem readBlock_forBlocks_of_lt (hf : WritesOwnBlock f a) (hj : j < n) :
    (forBlocks f n 0 r).mem.readBlock (a + 16 * j) = (f j (forBlocks f j 0 r)).mem.readBlock (a + 16 * j) := by
  obtain ⟨m, rfl⟩ := Nat.exists_eq_add_of_lt hj
  rw [show j + m + 1 = (j + 1) + m by omega, forBlocks_add, readBlock_forBlocks_of_other hf (by omega), forBlocks_succ,
    Nat.zero_add]

end

section
variable (rk : Schedule) (nr a : Nat)

theorem writesOwnBlock_cbcEncBlock : WritesOwnBlock (cbcEncBlock rk nr a) a :=
  fun _ _ _ h => Memory.readBlock_writeBlock_apart h

theorem writesOwnBlock_cbcDecBlock : WritesOwnBlock (cbcDecBlock rk nr a) a :=
  fun _ _ _ h => Memory.readBlock_writeBlock_apart h

/-! ### The loop of CBC_ENC -/

/-- The chaining value after n blocks of CBC_ENC is the block written last. -/
theorem iv_forBlocks_cbcEncBlock (n : Nat) (r : Run) : (forBlocks (cbcEncBlock rk nr a) n 0 r).iv =
    if n = 0 then r.iv else (forBlocks (cbcEncBlock rk nr a) n 0 r).mem.readBlock (a + 16 * (n - 1)) := by
  cases n with
  | zero => rfl
  | succ n =>
    rw [if_neg n.succ_ne_zero, Nat.add_sub_cancel, forBlocks_succ, Nat.zero_add, cbcEncBlock,
      Memory.readBlock_writeBlock]

/-- CBC_ENC does not use the scratch block (R260). -/
theorem scr_forBlocks_cbcEncBlock (n : Nat) (r : Run) : (forBlocks (cbcEncBlock rk nr a) n 0 r).scr = r.scr :=
  forBlocks_induct (P := fun r' : Run => r'.scr = r.scr) rfl fun _ _ _ _ hr' => hr'

/-- After n blocks of CBC_ENC, each is the Cipher of the input block exclusive-ored with the block written before it. -/
theorem readBlock_forBlocks_cbcEncBlock {j n : Nat} (r : Run) (hj : j < n) :
    (forBlocks (cbcEncBlock rk nr a) n 0 r).mem.readBlock (a + 16 * j) =
      cipher ((r.mem.readBlock (a + 16 * j)).xor
        (if j = 0 then r.iv else (forBlocks (cbcEncBlock rk nr a) n 0 r).mem.readBlock (a + 16 * (j - 1)))) rk nr := by
  have hw := writesOwnBlock_cbcEncBlock rk nr a
  have hchain : (forBlocks (cbcEncBlock rk nr a) j 0 r).iv =
      if j = 0 then r.iv else (forBlocks (cbcEncBlock rk nr a) n 0 r).mem.readBlock (a + 16 * (j - 1)) := by
    rw [iv_forBlocks_cbcEncBlock]
    split
    · rfl
    · rw [readBlock_forBlocks_of_lt hw (show j - 1 < j by omega),
        readBlock_forBlocks_of_lt hw (show j - 1 < n by omega)]
  rw [readBlock_forBlocks_of_lt hw hj, cbcEncBlock, Memory.readBlock_writeBlock, readBlock_forBlocks_self hw, hchain]

/-! ### The loop of CBC_DEC -/

/-- After at least one block of CBC_DEC, the chaining value and the scratch block are the last input block. -/
theorem iv_scr_forBlocks_cbcDecBlock (n : Nat) (r : Run) :
    (forBlocks (cbcDecBlock rk nr a) (n + 1) 0 r).iv = r.mem.readBlock (a + 16 * n) ∧
    (forBlocks (cbcDecBlock rk nr a) (n + 1) 0 r).scr = r.mem.readBlock (a + 16 * n) := by
  have hinput := readBlock_forBlocks_self (j := n) (r := r) (writesOwnBlock_cbcDecBlock rk nr a)
  rw [forBlocks_succ, Nat.zero_add]
  exact ⟨hinput, hinput⟩

/-- After n blocks of CBC_DEC, each is the InvCipher of its input block exclusive-ored with the input block before
it. -/
theorem readBlock_forBlocks_cbcDecBlock {j n : Nat} (r : Run) (hj : j < n) :
    (forBlocks (cbcDecBlock rk nr a) n 0 r).mem.readBlock (a + 16 * j) =
      (invCipher (r.mem.readBlock (a + 16 * j)) rk nr).xor
        (if j = 0 then r.iv else r.mem.readBlock (a + 16 * (j - 1))) := by
  have hw := writesOwnBlock_cbcDecBlock rk nr a
  have hchain : (forBlocks (cbcDecBlock rk nr a) j 0 r).iv =
      if j = 0 then r.iv else r.mem.readBlock (a + 16 * (j - 1)) := by
    cases j with
    | zero => rfl
    | succ k => exact (iv_scr_forBlocks_cbcDecBlock rk nr a k r).1
  rw [readBlock_forBlocks_of_lt hw hj, cbcDecBlock, Memory.readBlock_writeBlock, readBlock_forBlocks_self hw, hchain]

end

/-! ### The statements -/

/-- Settles O24: `check_cbc` decides between the clauses, and the loop's facts are those of `forBlocks` over
`cbcEncBlock`, whose last step writes the block L - 16 bytes into the buffer. -/
theorem cbcEncChainsBlocks : Obligations.CbcEncChainsBlocks := by
  unfold Obligations.CbcEncChainsBlocks
  intro s p hruns
  have hi : Instr.cbcEnc ∈ [Instr.cbcEnc, .cbcDec] := by decide
  refine ⟨endsWithError_cbc_uninitialized hi hruns.1, endsWithError_cbc_length hi hruns.1,
    endsWithError_cbc_range hi hruns.1, fun v hkv hl ha hplain => ?completes,
    fun hkv hl ha => busFaults_of_check_ok hruns.1 (check_cbc_eq_ok hi hkv hl (.inr ha))⟩
  case completes =>
    refine ⟨_, completes_cbc hi hruns hkv hl ha hplain, ?blocks, ?context, keepsMemoryOutside_cbc hi⟩
    case blocks =>
      rw [← Ctx.nr_of_kv_eq_some hkv]
      exact fun j hj => readBlock_forBlocks_cbcEncBlock s.ctx.rk s.ctx.nr p.a.toNat s.run hj
    case context =>
      have hiv := iv_forBlocks_cbcEncBlock s.ctx.rk s.ctx.nr p.a.toNat (p.l.toNat / 16) s.run
      have hscr := scr_forBlocks_cbcEncBlock s.ctx.rk s.ctx.nr p.a.toNat (p.l.toNat / 16) s.run
      rw [show 16 * (p.l.toNat / 16 - 1) = p.l.toNat - 16 by omega,
        if_congr (show p.l.toNat / 16 = 0 ↔ p.l.toNat = 0 by omega) rfl rfl] at hiv
      show (cbcEncBody p s).ctx = _
      rw [cbcEncBody, withRun_ctx, hiv, hscr]
      rfl

/-- Settles O25: as CBC_ENC in its checks; the loop over `cbcDecBlock` reads every block before its own step writes it,
so the chaining values are input blocks. -/
theorem cbcDecChainsBlocks : Obligations.CbcDecChainsBlocks := by
  unfold Obligations.CbcDecChainsBlocks
  intro s p hruns
  have hi : Instr.cbcDec ∈ [Instr.cbcEnc, .cbcDec] := by decide
  refine ⟨endsWithError_cbc_uninitialized hi hruns.1, endsWithError_cbc_length hi hruns.1,
    endsWithError_cbc_range hi hruns.1, fun v hkv hl ha hplain => ?completes,
    fun hkv hl ha => busFaults_of_check_ok hruns.1 (check_cbc_eq_ok hi hkv hl (.inr ha))⟩
  case completes =>
    refine ⟨_, completes_cbc hi hruns hkv hl ha hplain, ?blocks, fun hempty => ?empty, fun hpos => ?context,
      keepsMemoryOutside_cbc hi⟩
    case blocks =>
      rw [← Ctx.nr_of_kv_eq_some hkv]
      exact fun j hj => readBlock_forBlocks_cbcDecBlock s.ctx.rk s.ctx.nr p.a.toNat s.run hj
    case empty =>
      show (cbcDecBody p s).ctx = s.ctx
      rw [cbcDecBody, hempty]
      rfl
    case context =>
      obtain ⟨n, hn⟩ : ∃ n, p.l.toNat = 16 * (n + 1) := ⟨p.l.toNat / 16 - 1, by omega⟩
      obtain ⟨hiv, hscr⟩ := iv_scr_forBlocks_cbcDecBlock s.ctx.rk s.ctx.nr p.a.toNat n s.run
      show (cbcDecBody p s).ctx = _
      rw [cbcDecBody, show p.l.toNat / 16 = n + 1 by omega, show p.l.toNat - 16 = 16 * n by omega,
        withRun_ctx, hiv, hscr]
      rfl

end Sys2Proof.Machine
end

section
/-! PROOFS. The big-endian integer of bytes and of blocks (R8), and Inc128 as its increment modulo 2^128 (R280). -/

namespace Sys2Proof

/-! ### The integer of bytes and of blocks (R8) -/

/-- Read from the last byte on, the bytes are the integer's digits in base 256. -/
theorem natOfBytesBE_eq_ofDigits (l : List Byte) :
    natOfBytesBE l = Nat.ofDigits 256 (l.reverse.map BitVec.toNat) := by
  rw [Nat.ofDigits_eq_foldr, List.foldr_map, List.foldr_reverse, natOfBytesBE]
  congr
  funext n b
  simp only [Nat.cast_id]
  omega

/-- A byte's value is a digit in base 256. -/
theorem lt_of_mem_map_toNat {l : List Byte} : ∀ d ∈ l.map BitVec.toNat, d < 256 :=
  List.forall_mem_map.2 fun b _ => b.isLt

/-- Byte sequences of one length with the same integer are equal. -/
theorem natOfBytesBE_inj {l l' : List Byte} (hlen : l.length = l'.length) (h : natOfBytesBE l = natOfBytesBE l') :
    l = l' := by
  rw [natOfBytesBE_eq_ofDigits, natOfBytesBE_eq_ofDigits] at h
  have hdigits : l.reverse.map BitVec.toNat = l'.reverse.map BitVec.toNat :=
    Nat.ofDigits_inj_of_len_eq (by decide) (by simpa using hlen) lt_of_mem_map_toNat lt_of_mem_map_toNat h
  exact List.reverse_inj.1 (List.map_injective_iff.2 (fun _ _ => BitVec.eq_of_toNat_eq) hdigits)

/-- The bytes of the block made of 16 bytes are those bytes. -/
theorem Block.toList_ofList {l : List Byte} (h : l.length = 16) : (Block.ofList l).toList = l := by
  rw [Block.ofList, Block.toList_ofFn]
  exact List.ext_getElem (by simp [h]) fun k _ hk => by simp [hk]

/-- A block is determined by its integer (R280). -/
theorem Block.toNatBE_inj {b c : Block} (h : b.toNatBE = c.toNatBE) : b = c := by
  have hbytes : b.toList = c.toList := natOfBytesBE_inj rfl h
  rw [← Block.ofList_toList b, hbytes, Block.ofList_toList]

end Sys2Proof

namespace Sys2Proof.Machine

/-! ### The increment (R280) -/

@[simp] theorem incBytes_length (l : List Byte) : (incBytes l).length = l.length := by
  induction l with
  | nil => rfl
  | cons b bs ih =>
    rw [incBytes]
    split
    · exact congrArg Nat.succ ih
    · rfl

/-- A byte other than FF takes the increment without a carry. -/
theorem toNat_add_one_of_ne {b : Byte} (h : b ≠ 0xFF) : (b + 1).toNat = b.toNat + 1 := by bv_omega

/-- `incBytes` adds one to the integer whose least significant digit stands first; the carry out of the last byte is
lost. -/
theorem ofDigits_incBytes (l : List Byte) :
    Nat.ofDigits 256 ((incBytes l).map BitVec.toNat) =
      (Nat.ofDigits 256 (l.map BitVec.toNat) + 1) % 256 ^ l.length := by
  induction l with
  | nil => rfl
  | cons b bs ih =>
    rw [incBytes, List.length_cons]
    split
    case isTrue hcarry =>
      calc Nat.ofDigits 256 ((0x00 :: incBytes bs).map BitVec.toNat)
          = 256 * ((Nat.ofDigits 256 (bs.map BitVec.toNat) + 1) % 256 ^ bs.length) := by
            rw [List.map_cons, Nat.ofDigits_cons, ih]; exact Nat.zero_add _
        _ = (255 + 256 * Nat.ofDigits 256 (bs.map BitVec.toNat) + 1) % 256 ^ (bs.length + 1) := by
            rw [← Nat.mul_mod_mul_left, ← pow_succ']; congr 1; omega
        _ = (Nat.ofDigits 256 ((b :: bs).map BitVec.toNat) + 1) % 256 ^ (bs.length + 1) := by
            rw [hcarry]; rfl
    case isFalse hstop =>
      have hadd : Nat.ofDigits 256 (((b + 1) :: bs).map BitVec.toNat) =
          Nat.ofDigits 256 ((b :: bs).map BitVec.toNat) + 1 := by
        simp only [List.map_cons, Nat.ofDigits_cons, toNat_add_one_of_ne hstop, Nat.add_right_comm]
      have hlt := Nat.ofDigits_lt_base_pow_length (by decide) (lt_of_mem_map_toNat (l := (b + 1) :: bs))
      rw [List.length_map, List.length_cons, hadd] at hlt
      rw [hadd, Nat.mod_eq_of_lt hlt]

/-- Inc128 adds one modulo 2^128 (R280). -/
theorem toNatBE_inc128 (c : Block) : (inc128 c).toNatBE = (c.toNatBE + 1) % 2 ^ 128 := by
  have hbytes : (inc128 c).toList = (incBytes c.toList.reverse).reverse := Block.toList_ofList (by simp)
  rw [Block.toNatBE, Block.toNatBE, hbytes, natOfBytesBE_eq_ofDigits, natOfBytesBE_eq_ofDigits, List.reverse_reverse,
    ofDigits_incBytes, List.length_reverse, Block.toList_length, show 256 ^ 16 = 2 ^ 128 by norm_num]

/-- Settles O29: `inc128` increments the digits in base 256 from byte 15 on, and the digits give back the bytes. -/
theorem inc128IncrementsBigEndian : Obligations.Inc128IncrementsBigEndian :=
  ⟨toNatBE_inc128, fun _ _ => Block.toNatBE_inj⟩

end Sys2Proof.Machine
end

section
/-! PROOFS. The error codes one by one (R303 to R308): which commands each check stops, that no other command ends with
its code, and that an error of the checks has no other effect. -/

namespace Sys2Proof

/-- A word with one of the faults that R304 lists decodes to no command. -/
theorem not_exists_decode_of_illegal_fields {w : Reg32}
    (h : (fieldsOf w).rsv ≠ 0 ∨ (fieldsOf w).opcode = 0 ∨ 11 ≤ (fieldsOf w).opcode.toNat ∨
      ((fieldsOf w).opcode ∈ [1#4, 2#4] ∧ (fieldsOf w).var = 0) ∨
      ((fieldsOf w).opcode ∉ [1#4, 2#4] ∧ (fieldsOf w).var ≠ 0)) : ¬ ∃ i, decode w = .ok i := by
  rintro ⟨i, hi⟩
  rw [eq_encodeFields_of_decodeFields hi] at h
  revert h
  cases i <;> decide

end Sys2Proof

namespace Sys2Proof.Machine

/-! ### The classes of commands as the statements list them -/

theorem isMode_iff {i : Instr} : isMode i = true ↔ i ∈ [Instr.ecbEnc, .ecbDec, .cbcEnc, .cbcDec, .ctrXcrypt] := by
  cases i <;> decide

theorem isCbc_iff {i : Instr} : isCbc i = true ↔ i ∈ [Instr.cbcEnc, .cbcDec] := by
  cases i <;> decide

/-- The rows of the key lengths are the INIT commands with 4·Nk of their variant (R306). -/
theorem keyLength_row_iff {i : Instr} {len : Nat} :
    (i, len) ∈ [(Instr.initKeyAes128, 16), (.initKeyAes192, 24), (.initKeyAes256, 32),
      (.initKeyIvAes128, 16), (.initKeyIvAes192, 24), (.initKeyIvAes256, 32)] ↔
    ∃ v, initVariant i = some v ∧ len = 4 * v.nk := by
  cases i <;> simp [initVariant, Variant.nk]

/-- The INIT commands are no mode commands, so that neither the key nor the buffer length is checked for them. -/
theorem isMode_isCbc_of_initVariant {i : Instr} {v : Variant} (h : initVariant i = some v) :
    isMode i = false ∧ isCbc i = false := by
  cases i <;> cases h <;> exact ⟨rfl, rfl⟩

section
variable {i : Instr} {s t : State} {p : Pending} {kv : Option Variant} {v : Variant}

/-! ### What each code of the checks says about the command (R302) -/

theorem check_eq_uninitializedContext_iff :
    check i p kv = .uninitializedContext ↔ isMode i = true ∧ kv = none := by
  rw [check_eq]
  split_ifs with hkey <;> simp [hkey]

theorem initVariant_of_check_invalidKeyLength (h : check i p kv = .invalidKeyLength) :
    ∃ v, initVariant i = some v ∧ p.l.toNat ≠ 4 * v.nk := by
  rw [check_eq] at h
  split_ifs at h with _ hlength
  exact hlength

theorem isCbc_of_check_invalidBufferLength (h : check i p kv = .invalidBufferLength) :
    isCbc i = true ∧ p.l.toNat % 16 ≠ 0 := by
  rw [check_eq] at h
  split_ifs at h with _ _ hlength
  exact hlength

theorem region_of_check_addressRange (h : check i p kv = .addressRange) :
    ∃ r ∈ regions i p, 0 < r.len ∧ 2 ^ 32 < r.base + r.len := by
  rw [check_eq] at h
  split_ifs at h with _ _ _ hrange
  exact hrange

/-! ### A command that ends with an error of the checks -/

/-- An error other than BusFault is the answer of the checks, and the command did nothing else (R302, R303). -/
theorem finish_of_exec_error (h : exec i s = .next t) (hok : t.err ≠ .ok) (hbus : t.err ≠ .busFault) :
    ∃ p, s.pending = some p ∧ check i p s.ctx.kv = t.err ∧ t = s.finish t.err := by
  obtain ⟨p, hp, ⟨-, rfl⟩ | ⟨-, -, rfl⟩ | ⟨-, -, rfl⟩⟩ := exec_cases h
  · exact ⟨p, hp, rfl, rfl⟩
  · exact absurd rfl hok
  · exact absurd rfl hbus

/-- A command that ends with a code of the checks failed the check of that code. -/
theorem check_of_exec_err {e : ErrCode} (h : exec i s = .next t) (he : t.err = e) (hok : e ≠ .ok)
    (hbus : e ≠ .busFault) : ∃ p, s.pending = some p ∧ check i p s.ctx.kv = e := by
  subst he
  obtain ⟨p, hp, hcheck, -⟩ := finish_of_exec_error h hok hbus
  exact ⟨p, hp, hcheck⟩

/-! ### The INIT commands and CTR_XCRYPT -/

theorem endsWithError_init_length (hv : initVariant i = some v) (hp : s.pending = some p)
    (hl : p.l.toNat ≠ 4 * v.nk) : EndsWithError i s .invalidKeyLength := by
  obtain ⟨hmode, -⟩ := isMode_isCbc_of_initVariant hv
  exact endsWithError_of_check hp (by rw [check_eq, if_neg (by simp [hmode]), if_pos ⟨v, hv, hl⟩]) (by decide)

/-- An INIT command with its variant's key length is stopped by any region that runs past 2^32 (R302, R308). -/
theorem endsWithError_init_range {r : Region} (hv : initVariant i = some v) (hp : s.pending = some p)
    (hl : p.l.toNat = 4 * v.nk) (hr : r ∈ regions i p) (hpos : 0 < r.len) (hend : 2 ^ 32 < r.base + r.len) :
    EndsWithError i s .addressRange := by
  obtain ⟨hmode, hcbc⟩ := isMode_isCbc_of_initVariant hv
  refine endsWithError_of_check hp ?_ (by decide)
  rw [check_eq, if_neg (by simp [hmode]), if_neg (by simp [hv, hl]), if_neg (by simp [hcbc]),
    if_pos ⟨r, hr, hpos, hend⟩]

/-- The key is a region of every INIT command (R72). -/
theorem key_mem_regions (hv : initVariant i = some v) (p : Pending) :
    ⟨p.a.toNat, p.l.toNat, true, false⟩ ∈ regions i p := by
  cases i <;> cases hv <;> exact List.mem_cons_self

/-- CTR_XCRYPT with a key ends with AddressRange when its buffer is not empty and runs past 2^32 (R308). -/
theorem endsWithError_ctr_range (hp : s.pending = some p) (hkv : s.ctx.kv ≠ none) (hpos : 0 < p.l.toNat)
    (ha : p.a.toNat + p.l.toNat > 2 ^ 32) : EndsWithError .ctrXcrypt s .addressRange :=
  endsWithError_of_check hp (by rw [check_ctr, if_neg hkv, if_pos ⟨hpos, ha⟩]) (by decide)

end

/-! ### The statements -/

/-- Settles O7: a word with one of R304's faults decodes to no command, and the checks of a command have no such code. -/
theorem illegalWordReportsCodeFour : Obligations.IllegalWordReportsCodeFour := by
  unfold Obligations.IllegalWordReportsCodeFour
  refine ⟨fun s p hp hillegal => ?_, fun i s t h he => ?_, rfl⟩
  · cases hd : decode p.w with
    | error e => exact coreTurn_of_decode_error hp hd
    | ok i => exact absurd ⟨i, hd⟩ (not_exists_decode_of_illegal_fields hillegal)
  · obtain ⟨p, -, hcheck⟩ := check_of_exec_err h he (by decide) (by decide)
    exact check_ne_illegalCommand i p s.ctx.kv hcheck

/-- Settles O8: the first check fails exactly for a mode command without a key. -/
theorem modeCommandNeedsKey : Obligations.ModeCommandNeedsKey := by
  unfold Obligations.ModeCommandNeedsKey
  refine ⟨fun i s p hi hp hkv => ?_, fun i s t h he => ?_, rfl⟩
  · exact endsWithError_of_check hp (check_eq_uninitializedContext_iff.2 ⟨isMode_iff.2 hi, hkv⟩) (by decide)
  · obtain ⟨p, -, hcheck⟩ := check_of_exec_err h he (by decide) (by decide)
    obtain ⟨hmode, hkv⟩ := check_eq_uninitializedContext_iff.1 hcheck
    exact ⟨isMode_iff.1 hmode, hkv⟩

/-- Settles O9: the rows are the INIT commands with their variants' key lengths, which the second check compares with L. -/
theorem keyLengthMustMatchVariant : Obligations.KeyLengthMustMatchVariant := by
  unfold Obligations.KeyLengthMustMatchVariant
  refine ⟨fun i len s p hrow hp hl => ?_, fun i s t h he => ?_, rfl⟩
  · obtain ⟨v, hv, rfl⟩ := keyLength_row_iff.1 hrow
    exact endsWithError_init_length hv hp hl
  · obtain ⟨p, hp, hcheck⟩ := check_of_exec_err h he (by decide) (by decide)
    obtain ⟨v, hv, hl⟩ := initVariant_of_check_invalidKeyLength hcheck
    exact ⟨_, p, keyLength_row_iff.2 ⟨v, hv, rfl⟩, hp, hl⟩

/-- Settles O10: with a key a CBC command reaches the third check, which is about no other command. -/
theorem cbcLengthMustBeMultipleOf16 : Obligations.CbcLengthMustBeMultipleOf16 := by
  unfold Obligations.CbcLengthMustBeMultipleOf16
  refine ⟨fun i s p => endsWithError_cbc_length, fun i s t h he => ?_, rfl⟩
  obtain ⟨p, hp, hcheck⟩ := check_of_exec_err h he (by decide) (by decide)
  obtain ⟨hcbc, hl⟩ := isCbc_of_check_invalidBufferLength hcheck
  exact ⟨isCbc_iff.1 hcbc, p, hp, hl⟩

/-- Settles O11: each class of commands passes the earlier checks by the clause's premises, and the last check names a
region that is not empty and ends past 2^32. -/
theorem regionPastEndReportsRange : Obligations.RegionPastEndReportsRange := by
  unfold Obligations.RegionPastEndReportsRange
  refine ⟨fun i len s p hrow hp hl ha => ?key, fun i len s p hrow hp hl hb => ?iv, fun i s p => endsWithError_iv_range,
    fun i s p => endsWithError_ecb_range, fun i s p => endsWithError_cbc_range, fun s p => endsWithError_ctr_range,
    fun i s t h he => ?converse, rfl⟩
  case key =>
    obtain ⟨v, hv, rfl⟩ := keyLength_row_iff.1 hrow
    have hpos : 0 < p.l.toNat := by have := v.nk_pos; omega
    exact endsWithError_init_range hv hp hl (key_mem_regions hv p) hpos (by rwa [hl])
  case iv =>
    obtain ⟨v, hv, rfl⟩ := keyLength_row_iff.1 (List.mem_of_mem_drop (i := 3) hrow)
    have hmem : ⟨p.b.toNat, 16, true, false⟩ ∈ regions i p := by
      simp only [List.mem_cons, Prod.mk.injEq, List.not_mem_nil, or_false] at hrow
      rcases hrow with ⟨rfl, -⟩ | ⟨rfl, -⟩ | ⟨rfl, -⟩ <;> simp [regions]
    exact endsWithError_init_range hv hp hl hmem (Nat.succ_pos 15) hb
  case converse =>
    obtain ⟨p, hp, hcheck⟩ := check_of_exec_err h he (by decide) (by decide)
    obtain ⟨r, hr, hpos, hend⟩ := region_of_check_addressRange hcheck
    exact ⟨p, r, hp, hr, hpos, hend⟩

/-- Settles O12: the code is the answer of the checks, which read the latch and the key variant only. -/
theorem checkedErrorHasNoOtherEffect : Obligations.CheckedErrorHasNoOtherEffect := by
  unfold Obligations.CheckedErrorHasNoOtherEffect
  intro i s t h hok hbus
  obtain ⟨p, hp, hcheck, ht⟩ := finish_of_exec_error h hok hbus
  refine ⟨ht, fun m pf => ?_⟩
  rw [ht]
  exact endsWithError_of_check (s := { s with mem := m, platform := pf }) hp hcheck hok

end Sys2Proof.Machine
end

section
/-! PROOFS. The reset input while a command is pending: the command is abandoned, the mark is set, and only bytes of the
regions that it reached are free values (R341, R345, R72). -/

namespace Sys2Proof.Machine

/-- The core's registers at their reset values read as 0 in STATUS (R340). -/
@[simp] theorem statusWord_resetCore (s : State) : statusWord (resetCore s) = 0 := by
  simp [statusWord, State.busy, flagBit, Ctx.reset, kvCode, ErrCode.code]

/-- The regions reached are the command's own; when a check fails there are none. -/
theorem mem_regions_of_mem_reachedRegions {s : State} {p : Pending} {i : Instr} {r : Region} (hp : s.pending = some p)
    (hdecode : decode p.w = .ok i) (h : r ∈ reachedRegions s) : r ∈ regions i p := by
  simp only [reachedRegions, hp, hdecode] at h
  split at h
  · exact h
  · cases h

section
variable {s : State} {p : Pending} (hp : s.pending = some p)
include hp

theorem hostReset_of_pending : hostReset s =
    resetCore ((s.freeRegions ((reachedRegions s).filter fun r => r.written || s.raced)).mark .resetDuringBusy) :=
  if_pos ((busy_iff s).2 ⟨p, hp⟩)

theorem hostReset_fault_of_pending : (hostReset s).fault = some (s.fault.getD .resetDuringBusy) := by
  obtain ⟨m, n, hfree⟩ := freeRegions_eq s ((reachedRegions s).filter fun r => r.written || s.raced)
  rw [hostReset_of_pending hp, resetCore_fault, mark_fault, hfree]

/-- A byte stays unless a region that the reset frees holds it: one the command writes, or any after a race. -/
theorem hostReset_read_of_pending {a : Nat}
    (h : ∀ r ∈ reachedRegions s, (r.written || s.raced) = true → r.holds a = false) :
    (hostReset s).mem.read a = s.mem.read a := by
  rw [hostReset_of_pending hp, resetCore_mem, mark_mem]
  refine freeRegions_read fun r hr => ?_
  obtain ⟨hreached, hfreed⟩ := List.mem_filter.1 hr
  exact h r hreached hfreed

end

/-- Settles O48: `resetCore` gives the core's values, `mark` the mark, and a byte of no freed region stays. -/
theorem resetDuringBusySetsMark : Obligations.ResetDuringBusySetsMark := by
  unfold Obligations.ResetDuringBusySetsMark
  intro s p hp
  have hreset := hostReset_of_pending hp
  have hfault := hostReset_fault_of_pending hp
  refine ⟨hostReset s, rfl, ?ctx, ?opa, ?opb, ?oplen, ?status, ?pending, ?marked, ?reason, ?outside, ?unwritten⟩
  case ctx => rw [hreset, resetCore_ctx]; rfl
  case opa | opb | oplen | status | pending => simp [hreset]
  case marked => simp [hfault]
  case reason => intro hnone; rw [hfault, hnone]; rfl
  case outside =>
    intro a hout
    exact hostReset_read_of_pending hp fun r hr _ => by simpa using List.any_eq_false.1 hout r hr
  case unwritten =>
    intro hraced i hdecode a hout
    refine hostReset_read_of_pending hp fun r hr hfreed => ?_
    have hwritten : r.written = true := by simpa [hraced] using hfreed
    exact decide_eq_false (hout r (mem_regions_of_mem_reachedRegions hp hdecode hr) hwritten)

end Sys2Proof.Machine
end

section
/-! PROOFS. Decoding and encoding as inverses of each other: the fields of a word and the word of fields (R100), and the
command of a word and the word of a command (R105). -/

namespace Sys2Proof

/-- The fields of a word made of three fields are those fields (R100). -/
theorem fieldsOf_wordOf (f : Fields) : fieldsOf (wordOf f) = f := by
  obtain ⟨rsv, var, opcode⟩ := f
  rw [fieldsOf, Fields.mk.injEq]
  refine ⟨?high, ?middle, ?low⟩ <;> apply BitVec.eq_of_getLsbD_eq <;> intro k hk <;>
    simp only [BitVec.getLsbD_extractLsb', getLsbD_wordOf, hk, decide_true, Bool.true_and]
  case high => rw [if_neg (by omega), if_neg (by omega), Nat.add_sub_cancel_left]
  case middle => rw [if_neg (by omega), if_pos (by omega), Nat.add_sub_cancel_left]
  case low => rw [if_pos (by omega), Nat.zero_add]

/-- A command's fields decode to it, by the opcode table (R101). -/
theorem decodeFields_encodeFields (i : Instr) : decodeFields (encodeFields i) = .ok i := by cases i <;> rfl

/-- A command's word decodes to it (R105). -/
theorem decode_encode (i : Instr) : decode (encode i) = .ok i := by
  rw [decode, encode, fieldsOf_wordOf, decodeFields_encodeFields]

/-- Settles O2: words and fields are inverse bit by bit, and the two tables agree on the fields. -/
theorem decodeEncodeRoundTrip : Obligations.DecodeEncodeRoundTrip :=
  ⟨decode_encode, fun _ _ => eq_encode_of_decode, wordOf_fieldsOf, fieldsOf_wordOf⟩

/-- Settles O1: every word is a literal, and the decoder computes on it. -/
theorem sampleWordsDecode : Obligations.SampleWordsDecode :=
  ⟨rfl, rfl, rfl, rfl, rfl, rfl, rfl, rfl, rfl, rfl, rfl, rfl⟩

end Sys2Proof
end

section
/-! PROOFS. The fault mark over a completion, over a step of the host, and then over a step of the machine (R51). -/

namespace Sys2Proof.Machine

/-! ### The parts of a completion, field by field -/

section
variable (i : Instr) (p : Pending) (s : State)

@[simp] theorem settleRace_fault : (settleRace i p s).fault = s.fault := by
  obtain ⟨_, _, _, _, _, h⟩ := settleRace_eq i p s
  rw [h]

@[simp] theorem settleRace_mem :
    (settleRace i p s).mem = if s.raced then (s.freeRegions (regions i p)).mem else s.mem := by
  rw [settleRace]
  split_ifs <;> rfl

@[simp] theorem takeBusFault_fault : (takeBusFault i p s).fault = some (s.fault.getD .busFault) := by
  obtain ⟨_, _, _, h⟩ := takeBusFault_eq i p s
  rw [h]

@[simp] theorem takeBusFault_raced : (takeBusFault i p s).raced = s.raced := by
  obtain ⟨_, _, _, h⟩ := takeBusFault_eq i p s
  rw [h]

@[simp] theorem takeBusFault_mem :
    (takeBusFault i p s).mem = (s.freeRegions ((regions i p).filter (·.written))).mem := by
  rw [takeBusFault]
  split <;> rfl

end

section
variable {i : Instr} {op : HostOp} {s t : State}

/-! ### The fault mark -/

/-- A completion leaves the mark as it was, or ends with a bus fault and sets it (R309). -/
theorem exec_fault (h : exec i s = .next t) :
    t.fault = s.fault ∨ t.err = .busFault ∧ t.fault = some (s.fault.getD .busFault) := by
  obtain ⟨p, -, ⟨-, rfl⟩ | ⟨-, -, rfl⟩ | ⟨-, -, rfl⟩⟩ := exec_cases h
  · exact .inl rfl
  · left; simp
  · right; simp

/-- A write to a register touches the registers, the latch and the race flag only (R40, R48). -/
theorem regStore_eq (r : RegName) (v : Reg32) (s : State) : ∃ x y z q o e c, regStore r v s =
    { s with opa := x, opb := y, oplen := z, pending := q, ovr := o, err := e, raced := c } := by
  cases r
  case cmd =>
    obtain ⟨_, _, _, _, hcmd⟩ := cmdWrite_eq v s
    exact ⟨_, _, _, _, _, _, _, hcmd⟩
  all_goals exact ⟨_, _, _, _, _, _, _, rfl⟩

/-- WAIT touches the host's last read and the coming turns only (R108). -/
theorem hostWait_eq (s : State) :
    ∃ turns, hostWait s = { s with hostRead := some (statusWord s), schedule := turns } := by
  rw [hostWait]
  split
  · exact ⟨_, rfl⟩
  · exact ⟨s.schedule, rfl⟩

/-- The reset input leaves the mark, or sets it when a command is pending (R341). -/
theorem hostReset_fault (s : State) :
    (hostReset s).fault = s.fault ∨ (hostReset s).fault = some (s.fault.getD .resetDuringBusy) := by
  cases hp : s.pending with
  | none => left; rw [hostReset, if_neg (by simp [State.busy, hp]), resetCore_fault]
  | some p => exact .inr (hostReset_fault_of_pending hp)

/-- A step of the host leaves the mark as it was, or sets it. -/
theorem hostStep_fault (h : hostStep op s = .next t) :
    t.fault = s.fault ∨ ∃ r, t.fault = some (s.fault.getD r) := by
  cases op with
  | regRead addr size =>
    obtain rfl | ⟨r, rfl⟩ := hostRegRead_cases h
    · exact .inr ⟨_, rfl⟩
    · exact .inl rfl
  | regWrite addr size v =>
    obtain rfl | ⟨r, rfl⟩ := hostRegWrite_cases h
    · exact .inr ⟨_, rfl⟩
    · obtain ⟨_, _, _, _, _, _, _, hstore⟩ := regStore_eq r v s
      exact .inl (by rw [hstore])
  | wait =>
    cases h
    obtain ⟨_, hwait⟩ := hostWait_eq s
    exact .inl (by rw [hwait])
  | memRead addr =>
    obtain ⟨-, rfl⟩ | ⟨-, rfl⟩ := hostMemRead_cases h
    · exact .inr ⟨_, rfl⟩
    · exact .inl rfl
  | memWrite addr v =>
    obtain ⟨-, rfl⟩ | ⟨-, rfl⟩ := hostMemWrite_cases h
    · obtain ⟨_, _, hrace⟩ := racingWrite_eq addr.toNat v s
      exact .inr ⟨.hostRace, by rw [hrace]⟩
    · exact .inl rfl
  | reset =>
    cases h
    obtain hkept | hset := hostReset_fault s
    · exact .inl hkept
    · exact .inr ⟨_, hset⟩

/-- A set mark keeps its reason over every step (R51; log entry 14). -/
theorem step_keeps_fault {q : FaultReason} (hs : s.fault = some q) (h : step s = .next t) : t.fault = some q := by
  obtain ⟨rest, -, hstep⟩ | ⟨op, rest, -, hstep⟩ := step_cases s
  · obtain ⟨-, rfl⟩ | ⟨_, -, -, rfl⟩ | ⟨_, i, -, -, hexec⟩ := coreTurn_cases (hstep ▸ h)
    · exact hs
    · exact hs
    · obtain hkept | ⟨-, hset⟩ := exec_fault hexec
      · exact hkept.trans hs
      · simp [hset, hs]
  · obtain hkept | ⟨r, hset⟩ := hostStep_fault (hstep ▸ h)
    · exact hkept.trans hs
    · simp [hset, hs]

/-- Settles O58: the mark keeps its reason, and a final state has none. -/
theorem faultMarkIsNeverCleared : Obligations.FaultMarkIsNeverCleared := by
  unfold Obligations.FaultMarkIsNeverCleared
  intro s t hmarked h
  obtain ⟨q, hs⟩ := Option.ne_none_iff_exists'.1 hmarked
  have ht := step_keeps_fault hs h
  refine ⟨by simp [ht], ?_⟩
  rintro ⟨-, hfinal, -⟩
  simp [ht] at hfinal

end

end Sys2Proof.Machine
end

section
/-! PROOFS. The invariant: memory's canonical form, race bookkeeping and the unused schedule (R32), each kept by a
completion and by a step of the host, and so by a step of the machine. -/

namespace Sys2Proof.Machine

section
variable {i : Instr} {op : HostOp} {s t : State}

/-! ### Memory's canonical form -/

/-- A completion keeps memory's canonical form: its body and its free values lie in regions that passed the range
check. -/
theorem exec_mem_wf (hm : s.mem.wf = true) (h : exec i s = .next t) : t.mem.wf = true := by
  obtain ⟨p, -, ⟨-, rfl⟩ | ⟨hc, -, rfl⟩ | ⟨hc, -, rfl⟩⟩ := exec_cases h
  · exact hm
  all_goals
    have hr := inRange_of_check_ok hc
    rw [finish_mem, settleRace_mem]
  · have hbody := bodyOf_wf hc hm
    split
    · exact freeRegions_wf hbody hr
    · exact hbody
  · have hfault : (takeBusFault i p s).mem.wf = true := by
      rw [takeBusFault_mem]
      exact freeRegions_wf hm fun r hmem => hr r (List.mem_of_mem_filter hmem)
    split
    · exact freeRegions_wf hfault hr
    · exact hfault

theorem hostReset_mem_wf (hm : s.mem.wf = true) : (hostReset s).mem.wf = true := by
  rw [hostReset]
  split
  · exact freeRegions_wf hm fun r hr => reachedRegions_inRange s r (List.mem_of_mem_filter hr)
  · exact hm

/-- A step of the host keeps memory's canonical form: a byte it stores has a 32-bit address. -/
theorem hostStep_mem_wf (hm : s.mem.wf = true) (h : hostStep op s = .next t) : t.mem.wf = true := by
  cases op with
  | regRead addr size => obtain rfl | ⟨_, rfl⟩ := hostRegRead_cases h <;> exact hm
  | regWrite addr size v =>
    obtain rfl | ⟨r, rfl⟩ := hostRegWrite_cases h
    · exact hm
    · obtain ⟨_, _, _, _, _, _, _, hstore⟩ := regStore_eq r v s
      rwa [hstore]
  | wait =>
    cases h
    obtain ⟨_, hwait⟩ := hostWait_eq s
    rwa [hwait]
  | memRead addr => obtain ⟨-, rfl⟩ | ⟨-, rfl⟩ := hostMemRead_cases h <;> exact hm
  | memWrite addr v =>
    obtain ⟨-, rfl⟩ | ⟨-, rfl⟩ := hostMemWrite_cases h
    · obtain ⟨b, _, hrace⟩ := racingWrite_eq addr.toNat v s
      rw [hrace]
      exact Memory.write_wf b hm addr.isLt
    · exact Memory.write_wf v hm addr.isLt
  | reset => cases h; exact hostReset_mem_wf hm

/-! ### Race bookkeeping -/

theorem exec_pending_raced (h : exec i s = .next t) : t.pending = none ∧ t.raced = false := by
  obtain ⟨_, _, _, _, _, rfl⟩ := exec_next_eq h
  exact ⟨rfl, rfl⟩

/-- With nothing pending no address lies in a region of the pending command. -/
theorem inPendingRegion_of_idle (hp : s.pending = none) (a : Nat) : inPendingRegion s a = false := by
  simp [inPendingRegion, reachedRegions, hp]

theorem pending_ne_none_of_inPendingRegion {a : Nat} (h : inPendingRegion s a = true) : s.pending ≠ none := fun hp =>
  Bool.false_ne_true ((inPendingRegion_of_idle hp a).symm.trans h)

/-- A race is remembered only of a pending command, and with the mark set. -/
abbrev RaceMarked (s : State) : Prop := s.raced = true → s.pending ≠ none ∧ s.fault ≠ none

theorem regStore_raceMarked (r : RegName) (v : Reg32) (hr : RaceMarked s) : RaceMarked (regStore r v s) := by
  cases r
  case cmd =>
    rw [regStore]
    by_cases hp : s.pending = none
    · rw [cmdWrite_of_idle v hp]
      exact fun hraced => absurd hraced Bool.false_ne_true
    · rw [cmdWrite_of_busy v hp]
      exact hr
  all_goals exact hr

/-- A step of the host remembers a race only at a byte of a region of the pending command, and then sets the mark. -/
theorem hostStep_raceMarked (hr : RaceMarked s) (h : hostStep op s = .next t) : RaceMarked t := by
  cases op with
  | regRead addr size =>
    obtain rfl | ⟨_, rfl⟩ := hostRegRead_cases h
    · exact fun hraced => ⟨(hr hraced).1, Option.some_ne_none _⟩
    · exact hr
  | regWrite addr size v =>
    obtain rfl | ⟨r, rfl⟩ := hostRegWrite_cases h
    · exact fun hraced => ⟨(hr hraced).1, Option.some_ne_none _⟩
    · exact regStore_raceMarked r v hr
  | wait =>
    cases h
    obtain ⟨_, hwait⟩ := hostWait_eq s
    rwa [hwait]
  | memRead addr =>
    obtain ⟨hregion, rfl⟩ | ⟨-, rfl⟩ := hostMemRead_cases h
    · exact fun _ => ⟨pending_ne_none_of_inPendingRegion hregion, Option.some_ne_none _⟩
    · exact hr
  | memWrite addr v =>
    obtain ⟨hregion, rfl⟩ | ⟨-, rfl⟩ := hostMemWrite_cases h
    · obtain ⟨_, _, hrace⟩ := racingWrite_eq addr.toNat v s
      rw [hrace]
      exact fun _ => ⟨pending_ne_none_of_inPendingRegion hregion, Option.some_ne_none _⟩
    · exact hr
  | reset =>
    cases h
    rw [hostReset]
    split <;> exact fun hraced => absurd hraced Bool.false_ne_true

/-! ### The unused part of the schedule -/

/-- A body keeps the unused part of the schedule zero: the INIT commands store a schedule that is zero there, and CLEAR
stores zeros (R175, R224). -/
theorem bodyOf_tailZero (p : Pending) (hs : s.ctx.TailZero) : (bodyOf i p s).ctx.TailZero := by
  cases i
  case initKeyAes128 | initKeyAes192 | initKeyAes256 | initKeyIvAes128 | initKeyIvAes192 | initKeyIvAes256 =>
    exact fun k hk => byte_ofBytes_keyExpansion_of_le hk
  case clear => exact rfl
  all_goals exact hs

/-- With no race, a completion that leaves the mark empty keeps the unused part of the schedule zero. -/
theorem exec_tailZero (hraced : s.raced = false) (hs : s.ctx.TailZero) (h : exec i s = .next t) (ht : t.fault = none) :
    t.ctx.TailZero := by
  obtain ⟨p, -, ⟨-, rfl⟩ | ⟨-, -, rfl⟩ | ⟨-, -, rfl⟩⟩ := exec_cases h
  · exact hs
  · rw [settleRace_of_not_raced (by rwa [bodyOf_raced])]
    exact bodyOf_tailZero p hs
  · simp at ht

/-- A step of the host other than reset leaves the context alone (R48, R77). -/
theorem hostStep_ctx (h : hostStep op s = .next t) (hop : op ≠ .reset) : t.ctx = s.ctx := by
  cases op with
  | regRead addr size => obtain rfl | ⟨_, rfl⟩ := hostRegRead_cases h <;> rfl
  | regWrite addr size v =>
    obtain rfl | ⟨r, rfl⟩ := hostRegWrite_cases h
    · rfl
    · obtain ⟨_, _, _, _, _, _, _, hstore⟩ := regStore_eq r v s
      rw [hstore]
  | wait =>
    cases h
    obtain ⟨_, hwait⟩ := hostWait_eq s
    rw [hwait]
  | memRead addr => obtain ⟨-, rfl⟩ | ⟨-, rfl⟩ := hostMemRead_cases h <;> rfl
  | memWrite addr v =>
    obtain ⟨-, rfl⟩ | ⟨-, rfl⟩ := hostMemWrite_cases h
    · obtain ⟨_, _, hrace⟩ := racingWrite_eq addr.toNat v s
      rw [hrace]
    · rfl
  | reset => exact absurd rfl hop

@[simp] theorem hostReset_ctx (s : State) : (hostReset s).ctx = .reset := by
  rw [hostReset]
  split <;> rfl

/-! ### The invariant -/

theorem exec_inv (hs : s.Inv) (h : exec i s = .next t) : t.Inv where
  mem_wf := exec_mem_wf hs.mem_wf h
  raced_marked hraced := absurd ((exec_pending_raced h).2.symm.trans hraced) Bool.false_ne_true
  tail_zero ht := by
    obtain hkept | ⟨-, hset⟩ := exec_fault h
    · have hempty : s.fault = none := hkept ▸ ht
      have hraced : s.raced = false := by
        by_contra hraced
        exact (hs.raced_marked (Bool.not_eq_false _ ▸ hraced)).2 hempty
      exact exec_tailZero hraced (hs.tail_zero hempty) h ht
    · simp [hset] at ht

theorem hostStep_inv (hs : s.Inv) (h : hostStep op s = .next t) : t.Inv where
  mem_wf := hostStep_mem_wf hs.mem_wf h
  raced_marked := hostStep_raceMarked hs.raced_marked h
  tail_zero ht := by
    by_cases hop : op = .reset
    · subst hop
      cases h
      rw [hostReset_ctx]
      exact rfl
    · obtain hkept | ⟨_, hset⟩ := hostStep_fault h
      · rw [hostStep_ctx h hop]
        exact hs.tail_zero (hkept ▸ ht)
      · simp [hset] at ht

/-- The invariant does not read the coming turns. -/
theorem inv_withSchedule (hs : s.Inv) (rest : List Turn) : State.Inv { s with schedule := rest } :=
  ⟨hs.mem_wf, hs.raced_marked, hs.tail_zero⟩

/-- Ending a command keeps the invariant. -/
theorem finish_inv (hs : s.Inv) (e : ErrCode) : (s.finish e).Inv :=
  ⟨hs.mem_wf, fun hraced => absurd hraced Bool.false_ne_true, hs.tail_zero⟩

end

/-- Settles O59: a step is a turn of the core, which ends a command or stays idle, or a step of the host, and each keeps
the invariant. -/
theorem stepKeepsSoundState : Obligations.StepKeepsSoundState := by
  unfold Obligations.StepKeepsSoundState
  intro s t hs h
  obtain ⟨rest, -, hstep⟩ | ⟨op, rest, -, hstep⟩ := step_cases s
  · have hs' := inv_withSchedule hs rest
    obtain ⟨-, rfl⟩ | ⟨_, -, -, rfl⟩ | ⟨_, i, -, -, hexec⟩ := coreTurn_cases (hstep ▸ h)
    · exact hs'
    · exact finish_inv hs' _
    · exact exec_inv hs' hexec
  · exact hostStep_inv (inv_withSchedule hs rest) (hstep ▸ h)

/-- Settles O60: memory is empty, no race is remembered, and the schedule is zero. -/
theorem resetStateIsSound : Obligations.ResetStateIsSound :=
  ⟨Memory.nil_wf, fun hraced => absurd hraced Bool.false_ne_true, fun _ => rfl⟩

end Sys2Proof.Machine
end

section
/-! PROOFS. Whose turn a step takes and what the core does in its own (R300, R316, R317), and where the machine stops
(R77; log entries 7, 15, 16 and 20). -/

namespace Sys2Proof.Machine

section
variable {i : Instr} {s : State} {p : Pending}

/-! ### The turn of the core -/

theorem coreTurn_of_decode_ok (hp : s.pending = some p) (hd : decode p.w = .ok i) : coreTurn s = exec i s := by
  simp [coreTurn, hp, hd]

theorem coreTurn_of_idle (hp : s.pending = none) : coreTurn s = .next s := by
  simp [coreTurn, hp]

/-- Settles O4: whichever schedule gives the core its turn, the turn is exec of the decoded command or the ending of the
illegal word. -/
theorem stepRunsPendingCommand : Obligations.StepRunsPendingCommand := by
  unfold Obligations.StepRunsPendingCommand
  refine ⟨fun s p i hp hd => ⟨fun hs => ?_, fun rest hs => ?_⟩, fun s p e hp hd => ⟨fun hs => ?_, fun rest hs => ?_⟩⟩
  · rw [step_empty hs, coreTurn_of_decode_ok hp hd]
  · rw [step_core hs]
    exact coreTurn_of_decode_ok (s := { s with schedule := rest }) hp hd
  · rw [step_empty hs, coreTurn_of_decode_error hp hd]
    rfl
  · rw [step_core hs]
    exact coreTurn_of_decode_error (s := { s with schedule := rest }) hp hd

/-- Settles O5: an idle turn of the core answers the state it is given. -/
theorem idleCoreKeepsEverything : Obligations.IdleCoreKeepsEverything := by
  unfold Obligations.IdleCoreKeepsEverything
  refine ⟨fun s hp hs => ?_, fun s rest hp hs => ?_, fun s op rest hs => step_host hs⟩
  · rw [step_empty hs, coreTurn_of_idle hp]
  · rw [step_core hs]
    exact coreTurn_of_idle (s := { s with schedule := rest }) hp

/-! ### Where a completion stops -/

/-- With a device in the regions and every address answered, the scan answers device (R77). -/
theorem scanRegions_eq_device {pf : Platform} {rs : List Region}
    (hdevice : ∃ r ∈ rs, ∃ k, k < r.len ∧ pf.kindAt (r.base + k) = .device)
    (hanswered : ∀ r ∈ rs, ∀ k, k < r.len → pf.memOK (r.base + k) = true) : scanRegions pf rs = .device := by
  obtain ⟨r, hr, k, hk, hdevice⟩ := hdevice
  cases hscan : scanRegions pf rs with
  | device => rfl
  | plain => simp [(scanRegions_plain_iff pf rs).1 hscan r hr k hk] at hdevice
  | unanswered =>
    obtain ⟨q, hq, j, hj, hkind⟩ := exists_kindAt_eq_of_scanRegions hscan (by decide)
    have hsilent := hanswered q hq j hj
    simp [Platform.memOK, hkind] at hsilent

theorem exec_refused (hp : s.pending = some p) (hc : check i p s.ctx.kv = .ok)
    (hs : scanRegions s.platform (regions i p) = .device) : exec i s = .refused .deviceAccess := by
  simp [exec_eq, complete, hp, hc, hs]

/-- A pending command never ends in a fault of the machine. -/
theorem exec_ne_fault (hp : s.pending = some p) (f : Fault) : exec i s ≠ .fault f := by
  by_cases hc : check i p s.ctx.kv = .ok
  · cases hs : scanRegions s.platform (regions i p) <;> simp [exec_eq, complete, hp, hc, hs]
  · simp [exec_error hp hc]

/-- The core asks for no completion with nothing pending (R300). -/
theorem coreTurn_ne_fault (s : State) (f : Fault) : coreTurn s ≠ .fault f := by
  cases hp : s.pending with
  | none => simp [coreTurn_of_idle hp]
  | some p =>
    cases hd : decode p.w with
    | ok i => rw [coreTurn_of_decode_ok hp hd]; exact exec_ne_fault hp f
    | error e => simp [coreTurn_of_decode_error hp hd]

/-! ### Where a step of the host stops -/

/-- An access stops beside the window exactly where it touches no byte of it (R47; log entry 30). -/
theorem windowHit_outside {base addr : BusAddr} {size : AccessSize} (hfrom : 32 ≤ (addr - base).toNat)
    (hto : (addr - base).toNat + size.bytes ≤ 2 ^ 32) : windowHit base addr size = .outside := by
  rw [windowHit, if_neg (by omega), if_neg (by simpa [Config.busSpace] using hto)]

theorem hostStep_ne_nothingPending (op : HostOp) (s : State) : hostStep op s ≠ .fault .nothingPending := by
  cases op with
  | regRead addr size => rw [hostStep, hostRegRead]; split <;> simp
  | regWrite addr size v => rw [hostStep, hostRegWrite]; split <;> simp
  | wait => simp [hostStep]
  | memRead addr =>
    cases hk : s.platform.kindAt addr.toNat <;> cases hr : inPendingRegion s addr.toNat <;>
      simp [hostStep, hostMemRead, hk, hr]
  | memWrite addr v =>
    cases hk : s.platform.kindAt addr.toNat <;> cases hr : inPendingRegion s addr.toNat <;>
      simp [hostStep, hostMemWrite, hk, hr]
  | reset => simp [hostStep]

end

/-- Settles O14: the scan names a device, the platform's kind and the window's offset decide for the host, and the core
completes only what is pending. -/
theorem stopsAreNamed : Obligations.StopsAreNamed := by
  unfold Obligations.StopsAreNamed
  refine ⟨fun i s p hp hc hdevice hanswered => ?command, fun s addr v hk => ?device, fun s addr v hk hout => ?silent,
    fun s addr size v hfrom hto => ?outside, fun i s hp => ?nothing, fun s => ?step⟩
  case command => exact exec_refused hp hc (scanRegions_eq_device hdevice hanswered)
  case device => simp [hostStep, hostMemRead, hostMemWrite, hk]
  case silent => simp [hostStep, hostMemRead, hostMemWrite, hk, hout]
  case outside => simp [hostStep, hostRegRead, hostRegWrite, windowHit_outside hfrom hto]
  case nothing => rw [exec_eq, complete_nothing hp]
  case step =>
    obtain ⟨rest, -, hstep⟩ | ⟨op, rest, -, hstep⟩ := step_cases s <;> rw [hstep]
    · exact coreTurn_ne_fault _ _
    · exact hostStep_ne_nothingPending op _

end Sys2Proof.Machine
end

section
/-! PROOFS. The host's accesses, clause by clause: the register window (R47, R48, R76), data memory and the region
hazard (R77, R345), MemOK as a parameter (R79), WAIT (R108), and the reset input with nothing pending (R340). -/

namespace Sys2Proof.Machine

/-! ### The register window -/

/-- Settles O43: each offset is an aligned one of the window, and `regAt` names its register. -/
theorem registerWindowAccesses : Obligations.RegisterWindowAccesses := by
  unfold Obligations.RegisterWindowAccesses
  intro s v readAt writeAt
  have hread (off : BusAddr) (hlt : off.toNat < 32) (haligned : off.toNat % 4 = 0) :
      readAt off = .next (s.returning (regValue (regAt off.toNat) s)) := hostStep_regRead_word s hlt haligned
  have hwrite (off : BusAddr) (hlt : off.toNat < 32) (haligned : off.toNat % 4 = 0) :
      writeAt off = .next (regStore (regAt off.toNat) v s) := hostStep_regWrite_word s v hlt haligned
  refine ⟨⟨?_, ?_, ?_, ?_, ?_, ?_, ?_, ?_⟩, ?_, ?_, ?_, ?_, ?_, ?_, ?_⟩
  iterate 8 exact hread _ (by decide) (by decide)
  iterate 7 exact hwrite _ (by decide) (by decide)

/-- An access that touches the window is refused when it is narrow, wide or misaligned, or begins before the window
(R76; log entry 13). -/
theorem windowHit_refused {base addr : BusAddr} {size : AccessSize}
    (h : (addr - base).toNat < 32 ∧ (size ≠ .word ∨ (addr - base).toNat % 4 ≠ 0) ∨
      2 ^ 32 < (addr - base).toNat + size.bytes) : windowHit base addr size = .refused := by
  rw [windowHit]
  by_cases hin : (addr - base).toNat < 32
  · rw [if_pos hin, if_neg]
    rintro ⟨rfl, haligned⟩
    obtain ⟨-, hsize | hoff⟩ | hend := h
    · exact hsize rfl
    · exact hoff haligned
    · have hbytes : AccessSize.word.bytes = 4 := rfl
      omega
  · obtain ⟨hlt, -⟩ | hend := h
    · exact absurd hlt hin
    · rw [if_neg hin]
      exact if_pos hend

/-- Settles O44: a refused access changes the mark, and a read what the host has read and the counter of free values. -/
theorem refusedRegisterAccessSetsMark : Obligations.RefusedRegisterAccessSetsMark := by
  unfold Obligations.RefusedRegisterAccessSetsMark
  intro s addr size v h
  have hhit := windowHit_refused h
  have hwrite : hostStep (.regWrite addr size v) s = .next (s.mark .registerAccessRefused) := by
    rw [hostStep, hostRegWrite, hhit]
  have hread : hostStep (.regRead addr size) s =
      .next (((s.returning (freeReg32 s)).drawn 4).mark .registerAccessRefused) := by
    rw [hostStep, hostRegRead, hhit]
  exact ⟨⟨_, hwrite, Option.some_ne_none _, fun hempty => by simp [hempty], rfl⟩,
    ⟨_, hread, Option.some_ne_none _, fun hempty => by simp [hempty], rfl⟩⟩

/-! ### Data memory and the region hazard -/

section
variable {s : State} {addr : Addr}

theorem hostMemRead_race (hk : s.platform.kindAt addr.toNat ≠ .device) (hr : inPendingRegion s addr.toNat = true) :
    hostMemRead addr s = .next (racingRead s) := by
  cases hkind : s.platform.kindAt addr.toNat
  case device => exact absurd hkind hk
  all_goals simp [hostMemRead, hkind, hr]

theorem hostMemWrite_race (v : Byte) (hk : s.platform.kindAt addr.toNat ≠ .device)
    (hr : inPendingRegion s addr.toNat = true) : hostMemWrite addr v s = .next (racingWrite addr.toNat v s) := by
  cases hkind : s.platform.kindAt addr.toNat
  case device => exact absurd hkind hk
  all_goals simp [hostMemWrite, hkind, hr]

/-- A command whose checks pass reaches all its regions (R72). -/
theorem inPendingRegion_of_mem {p : Pending} {i : Instr} {r : Region} {a : Nat} (hp : s.pending = some p)
    (hd : decode p.w = .ok i) (hc : check i p s.ctx.kv = .ok) (hr : r ∈ regions i p) (hfrom : r.base ≤ a)
    (hto : a < r.base + r.len) : inPendingRegion s a = true := by
  simp only [inPendingRegion, reachedRegions, hp, hd, hc, if_true, List.any_eq_true]
  exact ⟨r, hr, decide_eq_true ⟨hfrom, hto⟩⟩

end

/-- Settles O49: a byte of a reached region makes the access a race, and every other byte of plain memory is free. -/
theorem hostAccessToPendingRegionIsRace : Obligations.HostAccessToPendingRegionIsRace := by
  unfold Obligations.HostAccessToPendingRegionIsRace
  intro s addr v hk
  refine ⟨fun p i r hp hd hc hr hfrom hto => ?race, fun hout hplain => ?free, fun hp => inPendingRegion_of_idle hp _⟩
  case race =>
    have hregion := inPendingRegion_of_mem hp hd hc hr hfrom hto
    obtain ⟨_, _, hwrite⟩ := racingWrite_eq addr.toNat v s
    refine ⟨⟨_, hostMemRead_race hk hregion, Option.some_ne_none _, fun hempty => by simp [racingRead, hempty]⟩,
      ⟨_, hostMemWrite_race v hk hregion, ?_, ?_⟩⟩ <;> rw [hwrite]
    · exact Option.some_ne_none _
    · exact fun hempty => by simp [hempty]
  case free => simp [hostStep, hostMemRead, hostMemWrite, hplain, hout, State.returning]

/-! ### MemOK -/

/-- One range of one address for every address below n that is not to answer. -/
def silentRanges (ok : Nat → Bool) (n : Nat) : List AddrRange :=
  ((List.range n).filter fun a => !ok a).map fun a => ⟨a, a + 1, .unanswered⟩

theorem mem_silentRanges {ok : Nat → Bool} {n : Nat} {r : AddrRange} :
    r ∈ silentRanges ok n ↔ ∃ a, a < n ∧ ok a = false ∧ r = ⟨a, a + 1, .unanswered⟩ := by
  simp only [silentRanges, List.mem_map, List.mem_filter, List.mem_range, Bool.not_eq_true', and_assoc,
    eq_comm (a := r)]

/-- A platform made of these ranges answers exactly the addresses that are to answer. -/
theorem memOK_silentRanges {ok : Nat → Bool} {n a : Nat} (base : BusAddr) (ha : a < n) :
    (Platform.mk base (silentRanges ok n)).memOK a = ok a := by
  rw [Platform.memOK, Platform.kindAt]
  cases hfind : (silentRanges ok n).find? fun r => decide (r.lo ≤ a ∧ a < r.hi) with
  | some r =>
    obtain ⟨b, -, hb, rfl⟩ := mem_silentRanges.1 (List.mem_of_find?_eq_some hfind)
    have hrange : b ≤ a ∧ a < b + 1 := by simpa using List.find?_some hfind
    obtain rfl : b = a := by omega
    simp [hb]
  | none =>
    have hnone := List.find?_eq_none.1 hfind
    cases hok : ok a
    · exact absurd (decide_eq_true ⟨Nat.le_refl a, Nat.lt_succ_self a⟩)
        (hnone _ (mem_silentRanges.2 ⟨a, ha, hok, rfl⟩))
    · rfl

/-- Settles O50: the platform lists the addresses that are not to answer. -/
theorem everyMemOkIsAPlatform : Obligations.EveryMemOkIsAPlatform := by
  unfold Obligations.EveryMemOkIsAPlatform
  intro ok
  refine ⟨⟨0, silentRanges (fun a => ok (BitVec.ofNat 32 a)) (2 ^ 32)⟩, fun a => ?_⟩
  rw [memOK_silentRanges 0 a.isLt, BitVec.ofNat_toNat, BitVec.setWidth_eq]

/-! ### WAIT and reset -/

/-- Settles O51: `hostWait` splits on BUSY. -/
theorem waitPollsUntilIdle : Obligations.WaitPollsUntilIdle := by
  unfold Obligations.WaitPollsUntilIdle
  refine ⟨fun s hidle => ?_, fun s hbusy => ?_⟩
  · simp [hostStep, hostWait, busy_eq_false_iff.2 hidle, State.returning]
  · simp [hostStep, hostWait, busy_of_pending_ne_none hbusy, State.returning]

theorem hostReset_of_idle {s : State} (h : s.pending = none) : hostReset s = resetCore s := by
  simp [hostReset, busy_eq_false_iff.2 h]

/-- Settles O47: with nothing pending the reset input is `resetCore`. -/
theorem resetInputRestoresCore : Obligations.ResetInputRestoresCore := by
  unfold Obligations.ResetInputRestoresCore
  intro s hidle
  refine ⟨resetCore s, congrArg _ (hostReset_of_idle hidle), ?_⟩
  exact ⟨rfl, rfl, rfl, rfl, statusWord_resetCore s, rfl, fun _ => rfl, rfl⟩

end Sys2Proof.Machine
end

section
/-! PROOFS. What a completion leaves alone, command by command: the latch and BUSY, the operand registers, memory
outside the written regions, the mark, and each part of the context (R31 to R34, R43, R72, R300, R309). -/

namespace Sys2Proof.Machine

/-! ### What every completion does -/

/-- Settles O6: a completion empties the latch, and bit 0 of STATUS is BUSY. -/
theorem completionClearsBusy : Obligations.CompletionClearsBusy := by
  unfold Obligations.CompletionClearsBusy
  intro i s t h
  obtain ⟨hpending, -⟩ := exec_pending_raced h
  obtain ⟨hbusy, -⟩ := statusWord_fields t
  refine ⟨hpending, ?_⟩
  calc (statusWord t).getLsbD 0
      = ((statusWord t).extractLsb' 0 1).getLsbD 0 := by simp
    _ = t.busy := by rw [hbusy]; simp
    _ = false := busy_eq_false_iff.2 hpending

/-- Settles O52: `exec_next_eq` lists what a completion may change. -/
theorem commandsKeepOperandRegisters : Obligations.CommandsKeepOperandRegisters := by
  unfold Obligations.CommandsKeepOperandRegisters
  intro i s t h
  obtain ⟨_, _, _, _, _, rfl⟩ := exec_next_eq h
  exact ⟨rfl, rfl, rfl, rfl, rfl, rfl, rfl⟩

section
variable {i : Instr} {s t : State} {p : Pending}

/-- A completion with code 6 leaves the mark set (R309). -/
theorem exec_fault_ne_none (h : exec i s = .next t) (hbus : t.err = .busFault) : t.fault ≠ none := by
  obtain ⟨p, -, ⟨-, rfl⟩ | ⟨-, -, rfl⟩ | ⟨-, -, rfl⟩⟩ := exec_cases h
  · exact absurd hbus (check_ne_busFault i p s.ctx.kv)
  · cases hbus
  · simp

/-! ### Completions with no race -/

/-- Everything the next state of a completion can be when no host raced the command. -/
theorem exec_cases_of_not_raced (hp : s.pending = some p) (hraced : s.raced = false) (h : exec i s = .next t) :
    (check i p s.ctx.kv ≠ .ok ∧ t = s.finish (check i p s.ctx.kv)) ∨
    (check i p s.ctx.kv = .ok ∧ scanRegions s.platform (regions i p) = .plain ∧ t = (bodyOf i p s).finish .ok) ∨
    (check i p s.ctx.kv = .ok ∧ scanRegions s.platform (regions i p) = .unanswered ∧
      t = (takeBusFault i p s).finish .busFault) := by
  obtain ⟨q, hq, hcases⟩ := exec_cases h
  obtain rfl : q = p := Option.some.inj (hq.symm.trans hp)
  rwa [settleRace_of_not_raced (by rwa [bodyOf_raced]), settleRace_of_not_raced (by rwa [takeBusFault_raced])] at hcases

/-- With no race and no bus fault, a completion is a failed check or the command's body. -/
theorem exec_cases_of_ne_busFault (hraced : s.raced = false) (h : exec i s = .next t) (hbus : t.err ≠ .busFault) :
    ∃ p, s.pending = some p ∧
      ((check i p s.ctx.kv ≠ .ok ∧ t = s.finish (check i p s.ctx.kv)) ∨
       (check i p s.ctx.kv = .ok ∧ scanRegions s.platform (regions i p) = .plain ∧ t = (bodyOf i p s).finish .ok)) := by
  obtain ⟨p, hp, -⟩ := exec_cases h
  obtain hfail | hbody | ⟨-, -, rfl⟩ := exec_cases_of_not_raced hp hraced h
  · exact ⟨p, hp, .inl hfail⟩
  · exact ⟨p, hp, .inr hbody⟩
  · exact absurd rfl hbus

/-- A byte outside the written regions stays on every path, a bus fault's too (R72, R309). -/
theorem exec_read_outside (hp : s.pending = some p) (hraced : s.raced = false) (h : exec i s = .next t) {a : Nat}
    (hout : ∀ r ∈ regions i p, r.written = true → r.holds a = false) : t.mem.read a = s.mem.read a := by
  obtain ⟨-, rfl⟩ | ⟨-, -, rfl⟩ | ⟨-, -, rfl⟩ := exec_cases_of_not_raced hp hraced h
  · rfl
  · exact bodyOf_read_outside hout
  · rw [finish_mem, takeBusFault_mem]
    refine freeRegions_read fun r hr => ?_
    obtain ⟨hregion, hwritten⟩ := List.mem_filter.1 hr
    exact hout r hregion hwritten

/-- But for a bus fault, a completion sets no mark and draws no free value. -/
theorem exec_fault_freeCtr (hraced : s.raced = false) (h : exec i s = .next t) (hbus : t.err ≠ .busFault) :
    t.fault = s.fault ∧ t.freeCtr = s.freeCtr := by
  obtain ⟨p, -, ⟨-, rfl⟩ | ⟨-, -, rfl⟩⟩ := exec_cases_of_ne_busFault hraced h hbus
  · exact ⟨rfl, rfl⟩
  · obtain ⟨_, _, hbody⟩ := bodyOf_eq i p s
    rw [hbody]
    exact ⟨rfl, rfl⟩

/-! ### The key variant and the round keys -/

theorem settleRace_kv_rk (hi : initVariant i = none) (p : Pending) (s : State) :
    (settleRace i p s).ctx.kv = s.ctx.kv ∧ (settleRace i p s).ctx.rk = s.ctx.rk := by
  obtain ⟨_, _, hfree⟩ := freeRegions_eq s (regions i p)
  rw [settleRace, hi, hfree]
  split <;> exact ⟨rfl, rfl⟩

theorem takeBusFault_kv_rk (hi : initVariant i = none) (p : Pending) (s : State) :
    (takeBusFault i p s).ctx.kv = s.ctx.kv ∧ (takeBusFault i p s).ctx.rk = s.ctx.rk := by
  obtain ⟨_, _, hfree⟩ := freeRegions_eq s ((regions i p).filter (·.written))
  rw [takeBusFault, hi, hfree]
  exact ⟨rfl, rfl⟩

theorem bodyOf_kv_rk (hi : initVariant i = none) (hclear : i ≠ .clear) (p : Pending) (s : State) :
    (bodyOf i p s).ctx.kv = s.ctx.kv ∧ (bodyOf i p s).ctx.rk = s.ctx.rk := by
  cases i
  case clear => exact absurd rfl hclear
  case initKeyAes128 | initKeyAes192 | initKeyAes256 | initKeyIvAes128 | initKeyIvAes192 | initKeyIvAes256 => cases hi
  all_goals exact ⟨rfl, rfl⟩

/-- A command other than INIT_KEY, INIT_KEY_IV and CLEAR keeps KV and RK on every path, races included (R31, R32). -/
theorem exec_kv_rk (hi : initVariant i = none) (hclear : i ≠ .clear) (h : exec i s = .next t) :
    t.ctx.kv = s.ctx.kv ∧ t.ctx.rk = s.ctx.rk := by
  obtain ⟨p, -, ⟨-, rfl⟩ | ⟨-, -, rfl⟩ | ⟨-, -, rfl⟩⟩ := exec_cases h
  · exact ⟨rfl, rfl⟩
  · have hrace := settleRace_kv_rk hi p (bodyOf i p s)
    have hbody := bodyOf_kv_rk hi hclear p s
    exact ⟨hrace.1.trans hbody.1, hrace.2.trans hbody.2⟩
  · have hrace := settleRace_kv_rk hi p (takeBusFault i p s)
    have hfault := takeBusFault_kv_rk hi p s
    exact ⟨hrace.1.trans hfault.1, hrace.2.trans hfault.2⟩

/-! ### The scratch block and the IV -/

theorem bodyOf_scr (hi : i ∉ [Instr.cbcDec, .ctrXcrypt, .clear]) (p : Pending) (s : State) :
    (bodyOf i p s).ctx.scr = s.ctx.scr := by
  cases i
  case cbcEnc => exact scr_forBlocks_cbcEncBlock s.ctx.rk s.ctx.nr p.a.toNat _ s.run
  case cbcDec | ctrXcrypt | clear => simp at hi
  all_goals rfl

/-- But for races and bus faults, a command other than CBC_DEC, CTR_XCRYPT and CLEAR keeps SCR (R34). -/
theorem exec_scr (hi : i ∉ [Instr.cbcDec, .ctrXcrypt, .clear]) (hraced : s.raced = false) (h : exec i s = .next t)
    (hbus : t.err ≠ .busFault) : t.ctx.scr = s.ctx.scr := by
  obtain ⟨p, -, ⟨-, rfl⟩ | ⟨-, -, rfl⟩⟩ := exec_cases_of_ne_busFault hraced h hbus
  · rfl
  · exact bodyOf_scr hi p s

/-- But for races and bus faults, GET_IV and the ECB commands keep the IV (R33). -/
theorem exec_iv (hi : i ∈ [Instr.getIv, .ecbEnc, .ecbDec]) (hraced : s.raced = false) (h : exec i s = .next t)
    (hbus : t.err ≠ .busFault) : t.ctx.iv = s.ctx.iv := by
  obtain ⟨p, -, ⟨-, rfl⟩ | ⟨-, -, rfl⟩⟩ := exec_cases_of_ne_busFault hraced h hbus
  · rfl
  · simp only [List.mem_cons, List.not_mem_nil, or_false] at hi
    rcases hi with rfl | rfl | rfl <;> rfl

end

/-! ### The statements -/

/-- Settles O13: the scan answers unanswered, so that the command takes a bus fault, which the other facts are read
off. -/
theorem busFaultReportsCodeSix : Obligations.BusFaultReportsCodeSix := by
  unfold Obligations.BusFaultReportsCodeSix
  rintro i s p ⟨hp, hraced⟩ hc hsilent hdevice
  have h : exec i s = .next ((takeBusFault i p s).finish .busFault) := by
    rw [exec_eq, complete_busFault hp hc (scanRegions_eq_unanswered hsilent hdevice),
      settleRace_of_not_raced (by rwa [takeBusFault_raced])]
  refine ⟨_, h, rfl, rfl, fun hempty => by simp [hempty], by simp, fun a hout => ?_,
    fun hi => takeBusFault_kv_rk hi p s⟩
  exact exec_read_outside hp hraced h fun r hr hwritten => decide_eq_false (hout r hr hwritten)

/-- Settles O53: none of these commands has a written region. -/
theorem nonStoringCommandsKeepMemory : Obligations.NonStoringCommandsKeepMemory := by
  unfold Obligations.NonStoringCommandsKeepMemory
  intro i s t hi hraced h
  obtain ⟨p, hp, -⟩ := exec_cases h
  have hread : ∀ r ∈ regions i p, r.written = false := by
    simp only [List.mem_cons, List.not_mem_nil, or_false] at hi
    rcases hi with rfl | rfl | rfl | rfl | rfl | rfl | rfl | rfl <;> simp [regions]
  refine ⟨fun a => exec_read_outside hp hraced h fun r hr hwritten => ?_, exec_fault_freeCtr hraced h⟩
  exact absurd ((hread r hr).symm.trans hwritten) Bool.false_ne_true

/-- With one region, what a completion keeps is all memory outside it. -/
theorem keepsMemoryOutside_of_regions {i : Instr} {s t : State} {p : Pending} {len : Nat} {read written : Bool}
    (hruns : s.Runs p) (h : exec i s = .next t) (hr : regions i p = [⟨p.a.toNat, len, read, written⟩]) :
    KeepsMemoryOutside s t p.a.toNat len := by
  intro a hout
  refine exec_read_outside hruns.1 hruns.2 h fun r hmem _ => ?_
  rw [hr, List.mem_singleton] at hmem
  subst hmem
  exact decide_eq_false (by dsimp only; omega)

/-- Settles O54: each of these commands has one region, from A on, and none is an INIT command or CLEAR. -/
theorem storingCommandsKeepOtherBytes : Obligations.StoringCommandsKeepOtherBytes := by
  unfold Obligations.StoringCommandsKeepOtherBytes
  intro i s t p hruns h
  refine ⟨fun hi => ?block, fun hi => ?buffer, fun hi => ?key, fun hi hbus => ?scr,
    fun hi hbus => exec_iv hi hruns.2 h hbus⟩
  case block =>
    simp only [List.mem_cons, List.not_mem_nil, or_false] at hi
    rcases hi with rfl | rfl | rfl <;> exact keepsMemoryOutside_of_regions hruns h rfl
  case buffer =>
    simp only [List.mem_cons, List.not_mem_nil, or_false] at hi
    rcases hi with rfl | rfl | rfl <;> exact keepsMemoryOutside_of_regions hruns h rfl
  case key =>
    have hkey : initVariant i = none ∧ i ≠ .clear := by
      simp only [List.mem_cons, List.not_mem_nil, or_false] at hi
      rcases hi with rfl | rfl | rfl | rfl | rfl | rfl <;> decide
    obtain ⟨hkv, hrk⟩ := exec_kv_rk hkey.1 hkey.2 h
    exact ⟨hkv, hrk, exec_fault_freeCtr hruns.2 h⟩
  case scr =>
    refine exec_scr ?_ hruns.2 h hbus
    simp only [List.mem_cons, List.not_mem_nil, or_false] at hi
    rcases hi with rfl | rfl | rfl | rfl <;> decide

/-- Settles O55: the reset input apart, only a completion touches the context, and only that of an INIT command or of
CLEAR touches KV or RK. -/
theorem onlyInitClearResetChangeKey : Obligations.OnlyInitClearResetChangeKey := by
  unfold Obligations.OnlyInitClearResetChangeKey
  intro s t h hchange
  obtain ⟨rest, hturn, hstep⟩ | ⟨op, rest, hturn, hstep⟩ := step_cases s
  · obtain ⟨-, rfl⟩ | ⟨_, -, -, rfl⟩ | ⟨p, i, hp, hd, hexec⟩ := coreTurn_cases (hstep ▸ h)
    · simp at hchange
    · simp at hchange
    · refine .inl ⟨hturn.imp And.left fun hcore => ⟨rest, hcore⟩, p, i, hp, hd, ?_⟩
      by_contra hi
      have hkey : initVariant i = none ∧ i ≠ .clear := by
        revert hi
        cases i <;> decide
      obtain ⟨hkv, hrk⟩ := exec_kv_rk hkey.1 hkey.2 hexec
      exact hchange.elim (absurd hkv) (absurd hrk)
  · by_cases hop : op = .reset
    · exact .inr ⟨rest, hop ▸ hturn⟩
    · simp [hostStep_ctx (hstep ▸ h) hop] at hchange

/-- Settles O56: as for the key; the empty mark rules out a bus fault. -/
theorem onlyFourEventsWriteScratch : Obligations.OnlyFourEventsWriteScratch := by
  unfold Obligations.OnlyFourEventsWriteScratch
  intro s t h hempty hchange hraced
  obtain ⟨rest, hturn, hstep⟩ | ⟨op, rest, hturn, hstep⟩ := step_cases s
  · obtain ⟨-, rfl⟩ | ⟨_, -, -, rfl⟩ | ⟨p, i, hp, hd, hexec⟩ := coreTurn_cases (hstep ▸ h)
    · exact absurd rfl hchange
    · exact absurd rfl hchange
    · refine .inl ⟨hturn.imp And.left fun hcore => ⟨rest, hcore⟩, p, i, hp, hd, ?_⟩
      by_contra hi
      have hbus : t.err ≠ .busFault := fun hbus => exec_fault_ne_none hexec hbus hempty
      exact hchange (exec_scr (s := { s with schedule := rest }) hi hraced hexec hbus)
  · by_cases hop : op = .reset
    · exact .inr ⟨rest, hop ▸ hturn⟩
    · have hctx := hostStep_ctx (hstep ▸ h) hop
      exact absurd (congrArg Ctx.scr hctx) hchange

end Sys2Proof.Machine
end

section
/-! PROOFS. The context after CLEAR and after reset (R224, R340), and what a completion does not depend on: the operand
registers after acceptance (R344), and, for the context commands, RK and SCR (R223). -/

namespace Sys2Proof

@[simp] theorem Schedule.byte_zero (k : Nat) : Schedule.zero.byte k = 0 := by
  simp only [Schedule.byte, Schedule.zero, List.getD_eq_getElem?_getD, List.getElem?_replicate]
  split <;> rfl

end Sys2Proof

namespace Sys2Proof.Machine

/-! ### CLEAR and reset -/

/-- CLEAR completes in what its body leaves, whatever its operands and the platform (R224). -/
theorem completes_clear {s : State} {p : Pending} (hruns : s.Runs p) :
    Completes .clear s ((clearBody p s).finish .ok) :=
  completes_body hruns (check_clear p _) (List.forall_mem_nil _)

/-- Settles O19: CLEAR has no check and no region, and its body writes zeros. -/
theorem clearWipesContext : Obligations.ClearWipesContext := by
  unfold Obligations.ClearWipesContext
  intro s p hruns
  exact ⟨_, completes_clear hruns, rfl, Schedule.byte_zero, Block.byte_zero, Block.byte_zero, rfl, rfl, rfl,
    fun _ => rfl⟩

/-- Settles O20: what CLEAR's body writes is the reset context. -/
theorem clearLeavesResetContext : Obligations.ClearLeavesResetContext := by
  unfold Obligations.ClearLeavesResetContext
  intro s t h hraced
  obtain ⟨p, hp, -⟩ := exec_cases h
  obtain ⟨hclear, -⟩ := completes_clear ⟨hp, hraced⟩
  rw [hclear] at h
  cases h
  rfl

/-- Settles O46: the reset state is written out field by field. -/
theorem resetValuesMatchTable : Obligations.ResetValuesMatchTable :=
  ⟨rfl, Schedule.byte_zero, Block.byte_zero, Block.byte_zero, rfl, rfl, rfl, by decide, rfl, rfl⟩

/-! ### What a completion does not read -/

/-- A body does not read the operand registers (R104, R344). -/
theorem bodyOf_withOperands (i : Instr) (p : Pending) (s : State) (x y z : Reg32) :
    bodyOf i p { s with opa := x, opb := y, oplen := z } =
      { bodyOf i p s with opa := x, opb := y, oplen := z } := by
  cases i <;> rfl

/-- Settles O45: the checks and the scan read the latch, and so does the body. -/
theorem operandsAreLatched : Obligations.OperandsAreLatched := by
  unfold Obligations.OperandsAreLatched
  intro i s t x y z hraced h hbus
  obtain ⟨p, hp, ⟨hc, rfl⟩ | ⟨hc, hs, rfl⟩⟩ := exec_cases_of_ne_busFault hraced h hbus
  · exact exec_error (s := { s with opa := x, opb := y, oplen := z }) hp hc
  · rw [exec_body (s := { s with opa := x, opb := y, oplen := z }) hp hraced hc hs, bodyOf_withOperands]
    rfl

/-- Settles O57: both completions take the same path, since the checks read no secret, and on it the bodies of these
commands write the same memory, IV and key variant. -/
theorem contextCommandsHideSecrets : Obligations.ContextCommandsHideSecrets := by
  unfold Obligations.ContextCommandsHideSecrets
  intro i s t u rk scr hi hraced h hbus h'
  obtain ⟨p, hp, ⟨hc, rfl⟩ | ⟨hc, hs, rfl⟩⟩ := exec_cases_of_ne_busFault hraced h hbus
  · rw [exec_error (s := { s with ctx := { s.ctx with rk := rk, scr := scr } }) hp hc] at h'
    cases h'
    exact ⟨rfl, rfl, rfl⟩
  · rw [exec_body (s := { s with ctx := { s.ctx with rk := rk, scr := scr } }) hp hraced hc hs] at h'
    cases h'
    simp only [List.mem_cons, List.not_mem_nil, or_false] at hi
    rcases hi with rfl | rfl | rfl <;> exact ⟨rfl, rfl, rfl⟩

end Sys2Proof.Machine
end

section
/-! PROOFS. The laws of the field product (R133, R134) and of the S-box tables (R154). -/

namespace Sys2Proof.Machine

/-- A byte taken on the sum of two bits is the sum of the byte taken on each (R131). -/
theorem ite_xor (b c : Bool) (t : Byte) :
    (if b ^^ c then t else 0) = (if b then t else 0) ^^^ (if c then t else 0) := by
  cases b <;> cases c <;> simp

/-- Adding a byte on a bit is adding the byte taken on that bit. -/
theorem ite_xor_self (b : Bool) (r t : Byte) : (if b then r ^^^ t else r) = r ^^^ (if b then t else 0) := by
  cases b <;> simp

/-- Multiplication by 02 is additive (R132). -/
@[simp] theorem xtime_xor (x y : Byte) : xtime (x ^^^ y) = xtime x ^^^ xtime y := by
  simp only [xtime, BitVec.shiftLeft_xor_distrib, BitVec.getLsbD_xor]
  rw [ite_xor]
  ac_rfl

/-- The loop is additive in what it has collected and in the multiple of x together. -/
theorem gmulLoop_xor_left (y : Byte) (n k : Nat) (r r' t t' : Byte) :
    gmulLoop y n k (r ^^^ r') (t ^^^ t') = gmulLoop y n k r t ^^^ gmulLoop y n k r' t' := by
  induction n generalizing k r r' t t' with
  | zero => rfl
  | succ n ih =>
    simp only [gmulLoop, xtime_xor, ← ih]
    congr 1
    split <;> ac_rfl

/-- The loop is additive in what it has collected and in y together. -/
theorem gmulLoop_xor_right (y z : Byte) (n k : Nat) (r r' t : Byte) :
    gmulLoop (y ^^^ z) n k (r ^^^ r') t = gmulLoop y n k r t ^^^ gmulLoop z n k r' t := by
  induction n generalizing k r r' t with
  | zero => rfl
  | succ n ih =>
    simp only [gmulLoop, ← ih]
    congr 1
    rw [BitVec.getLsbD_xor, ite_xor_self, ite_xor_self, ite_xor_self, ite_xor]
    ac_rfl

/-- Settles O38: shift-and-add is additive in either factor, since xtime is. -/
theorem gmulDistributesOverXor : Obligations.GmulDistributesOverXor := by
  unfold Obligations.GmulDistributesOverXor
  intro x y z
  exact ⟨gmulLoop_xor_left z 8 0 0 0 x y, gmulLoop_xor_right y z 8 0 0 0 x⟩

/-- Settles O37: over all 256 bytes. -/
theorem mixColumnsConstantsAreProducts : Obligations.MixColumnsConstantsAreProducts := by
  unfold Obligations.MixColumnsConstantsAreProducts
  decide

theorem invSbox_sbox (x : Byte) : invSbox (sbox x) = x := by decide +revert

theorem sbox_invSbox (x : Byte) : sbox (invSbox x) = x := by decide +revert

theorem sbox_no_fixed_point (x : Byte) : sbox x ≠ x ∧ sbox x ≠ x ^^^ 0xff := by decide +revert

/-- Settles O35: the tables undo each other byte by byte, which makes SBOX a bijection. -/
theorem sboxTablesAreInverse : Obligations.SboxTablesAreInverse :=
  ⟨fun x => ⟨invSbox_sbox x, sbox_invSbox x, sbox_no_fixed_point x⟩,
    Function.bijective_iff_has_inverse.2 ⟨invSbox, invSbox_sbox, sbox_invSbox⟩⟩

end Sys2Proof.Machine
end

section
/-! PROOFS. The inverse laws of the round functions and of the block transforms (R200), and the round keys of a stored
schedule (R175). -/

namespace Sys2Proof.Machine

/-! ### The inverse laws (R200) -/

@[simp] theorem invSubBytes_subBytes (s : Block) : invSubBytes (subBytes s) = s :=
  Block.ext_byte fun k hk => by rw [invSubBytes, subBytes, Block.byte_map _ _ hk, Block.byte_map _ _ hk, invSbox_sbox]

/-- Each index of the flat block goes to another and back. -/
@[simp] theorem invShiftRows_shiftRows (s : Block) : invShiftRows (shiftRows s) = s := rfl

theorem mixColumn_xor (v w : Word) : mixColumn (v.xor w) = (mixColumn v).xor (mixColumn w) := by
  simp only [mixColumn, mul02, mul03, Word.xor, xtime_xor, Word.mk.injEq]
  refine ⟨?_, ?_, ?_, ?_⟩ <;> ac_rfl

theorem invMixColumn_xor (v w : Word) : invMixColumn (v.xor w) = (invMixColumn v).xor (invMixColumn w) := by
  simp only [invMixColumn, mul02, mul04, mul08, mul09, mul0B, mul0D, mul0E, Word.xor, xtime_xor, Word.mk.injEq]
  refine ⟨?_, ?_, ?_, ?_⟩ <;> ac_rfl

theorem xtime_zero : xtime 0 = 0 := by decide

theorem xor_left_comm (x y z : Byte) : x ^^^ (y ^^^ z) = y ^^^ (x ^^^ z) := by ac_rfl

/-- A column with one byte that is not zero comes back: the products of a row of one matrix and a column of the other
cancel as sums of powers of xtime. -/
theorem invMixColumn_mixColumn_single (a : Byte) :
    invMixColumn (mixColumn ⟨a, 0, 0, 0⟩) = ⟨a, 0, 0, 0⟩ ∧ invMixColumn (mixColumn ⟨0, a, 0, 0⟩) = ⟨0, a, 0, 0⟩ ∧
    invMixColumn (mixColumn ⟨0, 0, a, 0⟩) = ⟨0, 0, a, 0⟩ ∧ invMixColumn (mixColumn ⟨0, 0, 0, a⟩) = ⟨0, 0, 0, a⟩ := by
  simp only [invMixColumn, mixColumn, mul02, mul03, mul04, mul08, mul09, mul0B, mul0D, mul0E, xtime_xor, xtime_zero,
    xor_zero, zero_xor, Word.mk.injEq]
  simp only [BitVec.xor_comm, BitVec.xor_assoc, xor_left_comm, BitVec.xor_self, xor_cancel_left, BitVec.xor_zero,
    BitVec.ofNat_eq_ofNat, and_self]

theorem word_eq_xor_singles (a b c d : Byte) :
    (⟨a, b, c, d⟩ : Word) = (Word.xor ⟨a, 0, 0, 0⟩ ⟨0, b, 0, 0⟩).xor (Word.xor ⟨0, 0, c, 0⟩ ⟨0, 0, 0, d⟩) := by
  simp [Word.xor]

/-- Both matrices are additive, so that a column comes back because each of its bytes alone does. -/
@[simp] theorem invMixColumn_mixColumn (w : Word) : invMixColumn (mixColumn w) = w := by
  obtain ⟨a, b, c, d⟩ := w
  obtain ⟨ha, -⟩ := invMixColumn_mixColumn_single a
  obtain ⟨-, hb, -⟩ := invMixColumn_mixColumn_single b
  obtain ⟨-, -, hc, -⟩ := invMixColumn_mixColumn_single c
  obtain ⟨-, -, -, hd⟩ := invMixColumn_mixColumn_single d
  rw [word_eq_xor_singles, mixColumn_xor, mixColumn_xor, mixColumn_xor, invMixColumn_xor, invMixColumn_xor,
    invMixColumn_xor, ha, hb, hc, hd]

@[simp] theorem invMixColumns_mixColumns (s : Block) : invMixColumns (mixColumns s) = s := by
  simp [invMixColumns, mixColumns]

@[simp] theorem addRoundKey_addRoundKey (s k : Block) : addRoundKey (addRoundKey s k) k = s := Block.xor_cancel s k

/-- Settles O32: one law per round function. -/
theorem roundFunctionsHaveInverses : Obligations.RoundFunctionsHaveInverses := fun s k =>
  ⟨invSubBytes_subBytes s, invShiftRows_shiftRows s, invMixColumns_mixColumns s, addRoundKey_addRoundKey s k⟩

/-! ### InvCipher after Cipher -/

/-- A round of InvCipher takes back what stands between two AddRoundKeys of Cipher: it ends before the ShiftRows and
SubBytes that follow the round before. -/
theorem decRound_shiftRows_subBytes_encRound (s k : Block) :
    decRound (shiftRows (subBytes (encRound s k))) k = shiftRows (subBytes s) := by
  simp [decRound, encRound]

/-- Rounds n to 1 of InvCipher take back rounds 1 to n of Cipher. -/
theorem decRounds_shiftRows_subBytes_encRounds (rk : Schedule) (n : Nat) (s : Block) :
    decRounds rk n (shiftRows (subBytes (encRounds rk n s))) = shiftRows (subBytes s) := by
  induction n with
  | zero => rfl
  | succ n ih => rw [encRounds, decRounds, decRound_shiftRows_subBytes_encRound, ih]

/-- Settles O33: by the rounds' induction, between the first and the last AddRoundKey. -/
theorem invCipherInvertsCipher : Obligations.InvCipherInvertsCipher := by
  unfold Obligations.InvCipherInvertsCipher
  intro b rk nr
  simp [invCipher, cipher, decRounds_shiftRows_subBytes_encRounds]

/-! ### Round keys of a stored schedule -/

/-- Round key r is the words 4r to 4r + 3 of the schedule (R32). -/
theorem roundKey_eq_words (rk : Schedule) (r : Nat) :
    rk.roundKey r = ⟨rk.word (4 * r), rk.word (4 * r + 1), rk.word (4 * r + 2), rk.word (4 * r + 3)⟩ := by
  simp only [Schedule.roundKey, Schedule.word, Block.ofFn, Word.ofFn, Nat.mul_add, ← Nat.mul_assoc, Nat.add_assoc]

/-- The first 16 bytes of the schedule are the key's, since every variant's key has at least four words (R171). -/
theorem keyExpansion_getD_of_lt (key : List Byte) (v : Variant) {k : Nat} (hk : k < 16) :
    (keyExpansion key v).getD k 0 = key.getD k 0 := by
  have hword : k / 4 < v.nk := by cases v <;> simp only [Variant.nk] <;> omega
  have hsize : k / 4 < 4 * (v.nr + 1) := by omega
  have hbyte := keyExpansion_getD key hsize (Nat.mod_lt k (by decide : 0 < 4))
  rw [Nat.div_add_mod, scheduleWords_getD_of_lt key hword] at hbyte
  rw [hbyte]
  interval_cases k <;> rfl

/-- Settles O40: the stored schedule's words are the expansion's, and its first bytes are the key's. -/
theorem roundKeysAreScheduleWords : Obligations.RoundKeysAreScheduleWords := by
  unfold Obligations.RoundKeysAreScheduleWords
  refine fun v key => ⟨fun r hr => ?words, fun k hk => ?bytes⟩
  case words =>
    rw [roundKey_eq_words]
    congr 1 <;> exact word_ofBytes_keyExpansion (by omega)
  case bytes =>
    rw [Schedule.roundKey, Block.byte_ofFn _ hk, Schedule.byte_ofBytes (keyExpansion_length_le key v), Nat.mul_zero,
      Nat.zero_add, keyExpansion_getD_of_lt key v hk]

end Sys2Proof.Machine
end

section
/-! PROOFS. ECB_DEC (R241), the round trip of the ECB commands, and one CBC command against two (R262). -/

namespace Sys2Proof.Machine

/-! ### One command after another -/

/-- After a completion another command can be placed with no race, on the same platform. -/
theorem raced_platform_of_completes {i : Instr} {s t : State} (h : Completes i s t) :
    t.raced = false ∧ t.platform = s.platform := by
  obtain ⟨-, ht⟩ := h
  rw [ht]
  exact ⟨rfl, rfl⟩

/-- A byte of a block that two memories have in common reads the same in both. -/
theorem Memory.read_eq_of_readBlock_eq {m m' : Memory} {x a : Nat} (h : m.readBlock x = m'.readBlock x) (hfrom : x ≤ a)
    (hto : a < x + 16) : m.read a = m'.read a := by
  have hbyte := congrArg (Block.byte · (a - x)) h
  simp only [Memory.byte_readBlock _ _ (show a - x < 16 by omega), Nat.add_sub_cancel' hfrom] at hbyte
  exact hbyte

/-! ### ECB_DEC -/

/-- Settles O22: as ECB_ENC in its checks, and the body writes the InvCipher of the block at A over it. -/
theorem ecbDecDecryptsBlock : Obligations.EcbDecDecryptsBlock := by
  unfold Obligations.EcbDecDecryptsBlock
  intro s p hruns
  have hi : Instr.ecbDec ∈ [Instr.ecbEnc, .ecbDec] := by decide
  refine ⟨endsWithError_ecb_uninitialized hi hruns.1, endsWithError_ecb_range hi hruns.1,
    fun v hkv ha hplain => ?completes, fun hkv ha => busFaults_of_check_ok hruns.1 (check_ecb_eq_ok hi hkv ha)⟩
  case completes =>
    have hkey : s.ctx.kv ≠ none := by simp [hkv]
    refine ⟨_, completes_body hruns (check_ecb_eq_ok hi hkey ha) (plainFrom_ecb_regions hi hplain), rfl, ?block,
      fun a hout => Memory.read_writeBlock_outside hout⟩
    case block =>
      rw [← Ctx.nr_of_kv_eq_some hkv]
      exact Memory.readBlock_writeBlock s.mem p.a.toNat _

/-- Settles O23: the block comes back by the inverse law, and neither command touches another byte. -/
theorem ecbDecUndoesEcbEnc : Obligations.EcbDecUndoesEcbEnc := by
  unfold Obligations.EcbDecUndoesEcbEnc
  intro s p q hruns hqa hkey ha hplain
  obtain ⟨v, hkv⟩ := Option.ne_none_iff_exists'.1 hkey
  obtain ⟨-, -, henc, -⟩ := ecbEncEncryptsBlock s p hruns
  obtain ⟨t, ht, htctx, htblock, htout⟩ := henc v hkv ha hplain
  obtain ⟨hraced, hplatform⟩ := raced_platform_of_completes ht
  obtain ⟨-, -, hdec, -⟩ := ecbDecDecryptsBlock { t with pending := some q } q ⟨rfl, hraced⟩
  rw [hqa] at hdec
  obtain ⟨u, hu, -, hublock, huout⟩ := hdec v (by rw [htctx, hkv]) ha (by simpa [hplatform] using hplain)
  refine ⟨t, u, ht.1, hu.1, fun a => ?_⟩
  by_cases hin : p.a.toNat ≤ a ∧ a < p.a.toNat + 16
  · refine Memory.read_eq_of_readBlock_eq ?_ hin.1 hin.2
    rw [hublock, htblock, htctx, invCipherInvertsCipher]
  · rw [huout a (by omega), htout a (by omega)]

/-! ### CBC across commands -/

/-- A loop from block m on is a loop from block 0 on whose blocks are shifted by m. -/
theorem forBlocks_shift {α : Type} {f g : Nat → α → α} {m : Nat} (h : ∀ j, f (m + j) = g j) (n k : Nat) (r : α) :
    forBlocks f n (m + k) r = forBlocks g n k r := by
  induction n generalizing k r with
  | zero => rfl
  | succ n ih => rw [forBlocks, forBlocks, h, Nat.add_assoc, ih]

/-- The step of the loop of a CBC command. -/
def cbcBlockOf : Instr → Schedule → Nat → Nat → Nat → Run → Run
  | .cbcEnc => cbcEncBlock
  | _ => cbcDecBlock

/-- The step reads its block's address only, so that block m + j is block j of the buffer that begins at block m. -/
theorem cbcBlockOf_add {i : Instr} (hi : i ∈ [Instr.cbcEnc, .cbcDec]) (rk : Schedule) (nr a m j : Nat) :
    cbcBlockOf i rk nr a (m + j) = cbcBlockOf i rk nr (a + 16 * m) j := by
  have haddr : a + 16 * (m + j) = a + 16 * m + 16 * j := by omega
  funext r
  simp only [List.mem_cons, List.not_mem_nil, or_false] at hi
  rcases hi with rfl | rfl
  · simp only [cbcBlockOf, cbcEncBlock, haddr]
  · simp only [cbcBlockOf, cbcDecBlock, haddr]

/-- The state in which a CBC command with the latched operands q ends when it completes from s. -/
def cbcEnd (i : Instr) (q : Pending) (s : State) : State :=
  (s.withRun (forBlocks (cbcBlockOf i s.ctx.rk s.ctx.nr q.a.toNat) (q.l.toNat / 16) 0 s.run)).finish .ok

/-- A CBC command placed in the latch completes in `cbcEnd` when its checks pass over plain memory. -/
theorem exec_cbc {i : Instr} {s : State} {q : Pending} (hi : i ∈ [Instr.cbcEnc, .cbcDec]) (hraced : s.raced = false)
    (hkey : s.ctx.kv ≠ none) (hl : q.l.toNat % 16 = 0) (ha : q.l.toNat = 0 ∨ q.a.toNat + q.l.toNat ≤ 2 ^ 32)
    (hplain : PlainFrom s q.a.toNat q.l.toNat) : exec i { s with pending := some q } = .next (cbcEnd i q s) := by
  obtain ⟨v, hkv⟩ := Option.ne_none_iff_exists'.1 hkey
  obtain ⟨hexec, -⟩ := completes_cbc (s := { s with pending := some q }) hi ⟨rfl, hraced⟩ hkv hl ha hplain
  rw [hexec]
  simp only [List.mem_cons, List.not_mem_nil, or_false] at hi
  rcases hi with rfl | rfl <;> rfl

/-- CBC over l₁ bytes and then over the l₂ bytes that follow ends as CBC over all of them: the first command leaves the
chaining value in the IV. Where the second part begins is not read when it is empty. -/
theorem cbcEnd_two_parts {i : Instr} {a l₁ l₂ : Reg32} (s : State) (w b : Reg32) (hi : i ∈ [Instr.cbcEnc, .cbcDec])
    (h₁ : l₁.toNat % 16 = 0) (h₂ : l₂.toNat % 16 = 0) (hl : l₁.toNat + l₂.toNat < 2 ^ 32)
    (hstart : l₂.toNat = 0 ∨ (a + l₁).toNat = a.toNat + l₁.toNat) :
    cbcEnd i ⟨w, a + l₁, b, l₂⟩ (cbcEnd i ⟨w, a, b, l₁⟩ s) = cbcEnd i ⟨w, a, b, l₁ + l₂⟩ s := by
  have hloop (r : Run) : forBlocks (cbcBlockOf i s.ctx.rk s.ctx.nr a.toNat) ((l₁ + l₂).toNat / 16) 0 r =
      forBlocks (cbcBlockOf i s.ctx.rk s.ctx.nr (a + l₁).toNat) (l₂.toNat / 16) 0
        (forBlocks (cbcBlockOf i s.ctx.rk s.ctx.nr a.toNat) (l₁.toNat / 16) 0 r) := by
    rw [BitVec.toNat_add_of_lt hl, show (l₁.toNat + l₂.toNat) / 16 = l₁.toNat / 16 + l₂.toNat / 16 by omega,
      forBlocks_add, Nat.zero_add]
    obtain hempty | hstart := hstart
    · rw [hempty]
      rfl
    · rw [hstart]
      refine forBlocks_shift (m := l₁.toNat / 16) (k := 0) (fun j => ?_) _ _
      rw [cbcBlockOf_add hi, Nat.mul_div_cancel' (Nat.dvd_of_mod_eq_zero h₁)]
  rw [cbcEnd, cbcEnd, cbcEnd, hloop]
  rfl

/-- Settles O26: all three commands complete in `cbcEnd`, whose parts `cbcEnd_two_parts` puts together. -/
theorem cbcContinuesAcrossCommands : Obligations.CbcContinuesAcrossCommands := by
  unfold Obligations.CbcContinuesAcrossCommands
  intro i s w b a l₁ l₂ hi hraced hkey h₁ h₂ ha hl hplain
  have hsum : (l₁ + l₂).toNat = l₁.toNat + l₂.toNat := BitVec.toNat_add_of_lt hl
  have hstart : l₂.toNat = 0 ∨ (a + l₁).toNat = a.toNat + l₁.toNat := by
    obtain hempty | hpos := Nat.eq_zero_or_pos l₂.toNat
    · exact .inl hempty
    · exact .inr (BitVec.toNat_add_of_lt (by omega))
  have hplain₂ : PlainFrom s (a + l₁).toNat l₂.toNat := by
    intro k hk
    obtain hempty | hstart := hstart
    · omega
    · rw [hstart, Nat.add_assoc]
      exact hplain _ (by omega)
  refine ⟨cbcEnd i ⟨w, a, b, l₁⟩ s, _, exec_cbc hi hraced hkey h₁ (.inr (by dsimp only; omega)) ?first,
    exec_cbc hi rfl hkey h₂ (by dsimp only; omega) hplain₂, ?whole⟩
  case first => exact fun k hk => hplain k (Nat.lt_add_right _ hk)
  case whole =>
    rw [cbcEnd_two_parts s w b hi h₁ h₂ hl hstart]
    refine exec_cbc hi hraced hkey (by dsimp only; omega) (.inr (by dsimp only; omega)) ?_
    simpa only [hsum] using hplain

end Sys2Proof.Machine
end

section
/-! PROOFS. The round trip of the CBC commands (R262), and CTR_XCRYPT: its keystream, its counter and its round trip
(R281, R282). -/

namespace Sys2Proof.Machine

/-! ### CBC round trip -/

/-- Two memories with the same blocks in a buffer of whole blocks, and the same bytes outside it, read alike. -/
theorem Memory.read_eq_of_blocks {m m' : Memory} {x l : Nat} (hl : l % 16 = 0)
    (hblocks : ∀ j, j < l / 16 → m.readBlock (x + 16 * j) = m'.readBlock (x + 16 * j))
    (hout : ∀ a, a < x ∨ x + l ≤ a → m.read a = m'.read a) (a : Nat) : m.read a = m'.read a := by
  by_cases hin : x ≤ a ∧ a < x + l
  · exact Memory.read_eq_of_readBlock_eq (hblocks ((a - x) / 16) (by omega)) (by omega) (by omega)
  · exact hout a (by omega)

/-- Settles O27: CBC_DEC adds to the InvCipher of each block the chaining value that CBC_ENC added before its Cipher. -/
theorem cbcDecUndoesCbcEnc : Obligations.CbcDecUndoesCbcEnc := by
  unfold Obligations.CbcDecUndoesCbcEnc
  intro s p q hruns hqa hql hkey hl ha hplain
  obtain ⟨v, hkv⟩ := Option.ne_none_iff_exists'.1 hkey
  obtain ⟨-, -, -, henc, -⟩ := cbcEncChainsBlocks s p hruns
  obtain ⟨t, ht, htblocks, htctx, htout⟩ := henc v hkv hl ha hplain
  obtain ⟨hraced, hplatform⟩ := raced_platform_of_completes ht
  obtain ⟨-, -, -, hdec, -⟩ := cbcDecChainsBlocks
    { t with pending := some q, ctx := { t.ctx with iv := s.ctx.iv } } q ⟨rfl, hraced⟩
  rw [hqa, hql] at hdec
  have hkv' : t.ctx.kv = some v := by rw [htctx, hkv]
  have hrk : t.ctx.rk = s.ctx.rk := by rw [htctx]
  obtain ⟨u, hu, hublocks, -, -, huout⟩ := hdec v hkv' hl ha (by simpa [hplatform] using hplain)
  refine ⟨t, u, ht.1, hu.1, Memory.read_eq_of_blocks (x := p.a.toNat) hl (fun j hj => ?_) fun a hout => ?_⟩
  · rw [hublocks j hj]
    dsimp only
    rw [htblocks j hj, hrk, invCipherInvertsCipher, Block.xor_cancel]
  · rw [huout a hout, htout a hout]

/-! ### CTR_XCRYPT: one chunk -/

/-- CTR_XCRYPT without a key ends with UninitializedContext (R305). -/
theorem endsWithError_ctr_uninitialized {s : State} {p : Pending} (hp : s.pending = some p) (hkv : s.ctx.kv = none) :
    EndsWithError .ctrXcrypt s .uninitializedContext :=
  endsWithError_of_check hp (by rw [check_ctr, if_pos hkv]) (by decide)

/-- CTR_XCRYPT passes its checks with a key and a buffer inside the address space; an empty one always is. -/
theorem check_ctr_eq_ok {p : Pending} {kv : Option Variant} (hkv : kv ≠ none)
    (ha : p.l.toNat = 0 ∨ p.a.toNat + p.l.toNat ≤ 2 ^ 32) : check .ctrXcrypt p kv = .ok := by
  rw [check_ctr, if_neg hkv, if_neg (by omega)]

/-- A byte of the exclusive-or of two byte sequences (R8). -/
theorem xorBytes_getD {d t : List Byte} {k : Nat} (hd : k < d.length) (ht : k < t.length) :
    (xorBytes d t).getD k 0 = d.getD k 0 ^^^ t.getD k 0 := by
  rw [List.getD_eq_getElem _ _ (by rw [xorBytes_length]; omega), List.getD_eq_getElem _ _ hd,
    List.getD_eq_getElem _ _ ht]
  exact List.getElem_zipWith

/-- A byte within the first n of a block. -/
theorem take_toList_getD (b : Block) {n k : Nat} (h : k < n) : (b.toList.take n).getD k 0 = b.byte k := by
  rw [Block.byte, List.getD_eq_getElem?_getD, List.getD_eq_getElem?_getD, List.getElem?_take_of_lt h]

section
variable (rk : Schedule) (nr a l : Nat)

/-- Chunk j adds the keystream of its counter to its own bytes of the buffer, and keeps the others. -/
theorem read_ctrChunk (j : Nat) (r : Run) {k : Nat} (hk : k < l) :
    (ctrChunk rk nr a l j r).mem.read (a + k) =
      if k / 16 = j then r.mem.read (a + k) ^^^ (cipher r.iv rk nr).byte (k % 16) else r.mem.read (a + k) := by
  rw [ctrChunk, Memory.read_writeBytes, chunk_length]
  refine if_ctx_congr (by omega) (fun hj => ?_) fun _ => rfl
  have hm : k % 16 < min 16 (l - 16 * j) := by omega
  have haddr : a + 16 * j + k % 16 = a + k := by omega
  rw [show a + k - (a + 16 * j) = k % 16 by omega, xorBytes_getD (by simpa using hm) (by simpa using hm),
    Memory.getD_readBytes _ _ hm, take_toList_getD _ hm, haddr]

/-! ### CTR_XCRYPT: the loop -/

/-- The counter after n chunks is incremented n times. -/
theorem iv_forBlocks_ctrChunk (n : Nat) (r : Run) : (forBlocks (ctrChunk rk nr a l) n 0 r).iv = inc128^[n] r.iv := by
  induction n with
  | zero => rfl
  | succ n ih => rw [forBlocks_succ, ctrChunk, ih, Function.iterate_succ_apply']

/-- After at least one chunk the scratch block is the keystream block of the last. -/
theorem scr_forBlocks_ctrChunk (n : Nat) (r : Run) :
    (forBlocks (ctrChunk rk nr a l) (n + 1) 0 r).scr = cipher (inc128^[n] r.iv) rk nr := by
  rw [forBlocks_succ, ctrChunk, iv_forBlocks_ctrChunk]

/-- After n chunks each byte of the first n has the keystream byte of its chunk's counter added; the others are as
before. -/
theorem read_forBlocks_ctrChunk (n : Nat) (r : Run) {k : Nat} (hk : k < l) :
    (forBlocks (ctrChunk rk nr a l) n 0 r).mem.read (a + k) =
      if k / 16 < n then r.mem.read (a + k) ^^^ (cipher (inc128^[k / 16] r.iv) rk nr).byte (k % 16)
      else r.mem.read (a + k) := by
  induction n with
  | zero => rfl
  | succ n ih =>
    rw [forBlocks_succ, Nat.zero_add, read_ctrChunk rk nr a l n _ hk, ih, iv_forBlocks_ctrChunk]
    obtain hlt | rfl | hgt := Nat.lt_trichotomy (k / 16) n
    · rw [if_neg (by omega), if_pos hlt, if_pos (by omega)]
    · rw [if_pos rfl, if_neg (by omega), if_pos (by omega)]
    · rw [if_neg (by omega), if_neg (by omega), if_neg (by omega)]

end

/-- Settles O28: `check_ctr` decides between the clauses, and the loop's facts are those of `forBlocks` over `ctrChunk`
for ceil(L/16) chunks. -/
theorem ctrXorsKeystream : Obligations.CtrXorsKeystream := by
  unfold Obligations.CtrXorsKeystream
  intro s p hruns
  refine ⟨endsWithError_ctr_uninitialized hruns.1, endsWithError_ctr_range hruns.1, fun v hkv ha hplain => ?completes,
    fun hkv ha => busFaults_of_check_ok hruns.1 (check_ctr_eq_ok hkv (.inr ha))⟩
  case completes =>
    have hcompletes := completes_body hruns (check_ctr_eq_ok (by simp [hkv]) ha)
      (show ∀ r ∈ regions .ctrXcrypt p, PlainFrom s r.base r.len by simpa [regions] using hplain)
    refine ⟨_, hcompletes, fun k hk => ?bytes, ?context, keepsMemoryOutside_of_regions hruns hcompletes.1 rfl⟩
    case bytes =>
      rw [← Ctx.nr_of_kv_eq_some hkv]
      refine (read_forBlocks_ctrChunk s.ctx.rk s.ctx.nr p.a.toNat p.l.toNat _ s.run hk).trans ?_
      exact if_pos (by omega)
    case context =>
      have hiv := iv_forBlocks_ctrChunk s.ctx.rk s.ctx.nr p.a.toNat p.l.toNat ((p.l.toNat + 15) / 16) s.run
      have hscr : (forBlocks (ctrChunk s.ctx.rk s.ctx.nr p.a.toNat p.l.toNat) ((p.l.toNat + 15) / 16) 0 s.run).scr =
          if p.l.toNat = 0 then s.ctx.scr else cipher (inc128^[(p.l.toNat - 1) / 16] s.ctx.iv) s.ctx.rk s.ctx.nr := by
        split
        · next hempty => rw [hempty]; rfl
        · rw [show (p.l.toNat + 15) / 16 = (p.l.toNat - 1) / 16 + 1 by omega, scr_forBlocks_ctrChunk]
          rfl
      show (ctrBody p s).ctx = _
      rw [ctrBody, withRun_ctx, hiv, hscr, Ctx.nr_of_kv_eq_some hkv]
      rfl

/-! ### The counter as an integer -/

theorem toNatBE_lt (c : Block) : c.toNatBE < 2 ^ 128 := by
  have hlt := Nat.ofDigits_lt_base_pow_length (by decide) (lt_of_mem_map_toNat (l := c.toList.reverse))
  rwa [← natOfBytesBE_eq_ofDigits, List.length_map, List.length_reverse, Block.toList_length,
    show 256 ^ 16 = 2 ^ 128 by norm_num] at hlt

/-- n increments add n modulo 2^128 (R280). -/
theorem toNatBE_iterate_inc128 (n : Nat) (c : Block) : (inc128^[n] c).toNatBE = (c.toNatBE + n) % 2 ^ 128 := by
  induction n with
  | zero => rw [Function.iterate_zero_apply, Nat.add_zero, Nat.mod_eq_of_lt (toNatBE_lt c)]
  | succ n ih => rw [Function.iterate_succ_apply', toNatBE_inc128, ih, Nat.mod_add_mod, Nat.add_assoc]

/-- Settles O30: code 0 means that the body ran, over one increment per chunk. -/
theorem ctrAdvancesCounterByChunks : Obligations.CtrAdvancesCounterByChunks := by
  unfold Obligations.CtrAdvancesCounterByChunks
  rintro s t p ⟨hp, hraced⟩ h hok
  obtain ⟨hc, rfl⟩ | ⟨-, -, rfl⟩ | ⟨-, -, rfl⟩ := exec_cases_of_not_raced hp hraced h
  · exact absurd hok hc
  · rw [← toNatBE_iterate_inc128]
    exact congrArg Block.toNatBE (iv_forBlocks_ctrChunk s.ctx.rk s.ctx.nr p.a.toNat p.l.toNat _ s.run)
  · cases hok

/-- Settles O31: the same keystream is added to each byte twice. -/
theorem ctrUndoesItself : Obligations.CtrUndoesItself := by
  unfold Obligations.CtrUndoesItself
  intro s p q hruns hqa hql hkey ha hplain
  obtain ⟨v, hkv⟩ := Option.ne_none_iff_exists'.1 hkey
  obtain ⟨-, -, hfirst, -⟩ := ctrXorsKeystream s p hruns
  obtain ⟨t, ht, htbytes, htctx, htout⟩ := hfirst v hkv ha hplain
  obtain ⟨hraced, hplatform⟩ := raced_platform_of_completes ht
  obtain ⟨-, -, hsecond, -⟩ := ctrXorsKeystream
    { t with pending := some q, ctx := { t.ctx with iv := s.ctx.iv } } q ⟨rfl, hraced⟩
  rw [hqa, hql] at hsecond
  have hkv' : t.ctx.kv = some v := by rw [htctx, hkv]
  have hrk : t.ctx.rk = s.ctx.rk := by rw [htctx]
  obtain ⟨u, hu, hubytes, -, huout⟩ := hsecond v hkv' ha (by simpa [hplatform] using hplain)
  refine ⟨t, u, ht.1, hu.1, fun a => ?_⟩
  by_cases hin : p.a.toNat ≤ a ∧ a < p.a.toNat + p.l.toNat
  · obtain ⟨k, rfl⟩ := Nat.exists_eq_add_of_le hin.1
    have hk : k < p.l.toNat := by omega
    rw [hubytes k hk]
    dsimp only
    rw [htbytes k hk, hrk, xor_cancel_right]
  · rw [huout a (by omega), htout a (by omega)]

end Sys2Proof.Machine
end
